-- ==== Sys2Proof/Word.lean ====
section
/-! DEFINITION. Word types of the TFC (spec 00_scope.md section 6). -/

namespace Sys2Proof

/-- A byte: 8 bits, unsigned 0 to 255 (00_scope.md section 6). -/
abbrev Byte := BitVec 8

/-- A text is a finite sequence of 8-bit character codes (41_text_front_end.md R141, 30_encoding.md R99). -/
abbrev Text := List Byte

end Sys2Proof
end

