-- ==== Sys2Proof/Config.lean ====
section
/-! DEFINITION. Constants of the TFC (00_scope.md R6, R7), its open parameter HAS_TF and its one free value. -/

namespace Sys2Proof.Config

/-- `POLY`, 00_scope.md R6. -/
abbrev poly : BitVec 16 := 0x8005
/-- `CRC_INIT`, 00_scope.md R6. -/
abbrev crcInit : BitVec 16 := 0x0000
/-- `SYNC_CONST`, 00_scope.md R6. -/
abbrev syncConst : BitVec 16 := 0x1ACF
/-- `MIN_LEN`, 00_scope.md R6. -/
abbrev minLen : Nat := 12
/-- `HDR_LEN`, 00_scope.md R6. -/
abbrev hdrLen : Nat := 10
/-- `TYPE_HK`, 00_scope.md R6, 30_encoding.md R83. -/
abbrev typeHk : Byte := 0x10
/-- `TYPE_PD`, 00_scope.md R6, 30_encoding.md R83. -/
abbrev typePd : Byte := 0x20
/-- `HK_MIN_PAYLOAD`, 00_scope.md R6. -/
abbrev hkMinPayload : Nat := 8
/-- `FBSIZE`, 00_scope.md R6. -/
abbrev fbSize : Nat := 255
/-- The largest value of COUNT, `2^CNTW - 1` with CNTW = 16 (00_scope.md R6, 10_state.md R24). -/
abbrev countMax : Nat := 65535

/-- The value FB holds at an address nothing has written since a RESET: unspecified, any value (10_state.md R45,
93_implementation_defined.md V1). The first argument numbers the RESET, the second is the address. Log 4. -/
opaque unwrittenByte : Nat → Nat → Byte

/-- `HAS_TF`: whether a text front end stands inside the block. OPEN (00_scope.md R6, 41_text_front_end.md R150). Log 6. -/
opaque hasTF : Bool

end Sys2Proof.Config
end

