-- ==== Sys2Proof/Machine/Checksum.lean ====
section
/-! DEFINITION. Unit CC, the Checksum Codec (40_checksum_codec.md). -/

namespace Sys2Proof.Machine

/-- `crc_step_bit` (R121): the top bit is tested before the shift. -/
def crcStepBit (r : BitVec 16) : BitVec 16 :=
  if r.msb then (r <<< 1) ^^^ Config.poly else r <<< 1

/-- `n` bit steps, one after the other. -/
def crcSteps : Nat → BitVec 16 → BitVec 16
  | 0, r => r
  | n + 1, r => crcSteps n (crcStepBit r)

/-- The byte XORed into the high byte of the register (R122). -/
def crcXorHigh (r : BitVec 16) (b : Byte) : BitVec 16 :=
  r ^^^ (b.setWidth 16 <<< 8)

/-- `crc_update_byte` (R122): exactly 8 bit steps. -/
def crcUpdateByte (r : BitVec 16) (b : Byte) : BitVec 16 :=
  crcSteps 8 (crcXorHigh r b)

/-- `crc_update` (R123): bytes in order of rising offset. -/
def crcUpdate : BitVec 16 → List Byte → BitVec 16
  | r, [] => r
  | r, b :: bs => crcUpdate (crcUpdateByte r b) bs

/-- `checksum` (R124). -/
def checksum (bs : List Byte) : BitVec 16 :=
  crcUpdate Config.crcInit bs

/-- One entry `TAB[i]` of the table form (R130). -/
def crcTab (i : Byte) : BitVec 16 :=
  crcUpdateByte 0 i

/-- The table form of one byte (R130). -/
def crcUpdateByteTab (r : BitVec 16) (b : Byte) : BitVec 16 :=
  (r <<< 8) ^^^ crcTab (r.extractLsb' 8 8 ^^^ b)

end Sys2Proof.Machine
end

