-- ==== Sys2Proof/Syntax.lean ====
section
/-! DEFINITION. The instructions of spec/opcode_table.json and the inputs the block takes (30_encoding.md). -/

namespace Sys2Proof

/-- The operands of a FRAME instruction: every field of the wire format but SYNC and TYPE, which select the row
(30_encoding.md R81, R111). LEN and CHK are operands, so a frame whose LEN or CHK is wrong is still an instruction: it
raises the failure the spec names. Log 5. -/
structure FrameOperands where
  /-- LEN, the declared length. -/
  len : Byte
  /-- SATID. -/
  satid : BitVec 16
  /-- TS. -/
  ts : BitVec 32
  /-- PAYLOAD, `N - 12` bytes. -/
  payload : List Byte
  /-- CHK, the received trailer. -/
  chk : BitVec 16
  deriving DecidableEq, Repr

/-- One constructor per row of spec/opcode_table.json. -/
inductive Instr where
  /-- NOP, `cmd = 00`; `data` is ignored (30_encoding.md R91). -/
  | nop (data : Byte)
  /-- START, `cmd = 01`; `data` is ignored (30_encoding.md R91). -/
  | start (data : Byte)
  /-- BYTE, `cmd = 10`; `data` is the byte (30_encoding.md R91). -/
  | byte (data : Byte)
  /-- END, `cmd = 11`; `data` is ignored (30_encoding.md R91). -/
  | end_ (data : Byte)
  /-- HK, type code 0x10 (30_encoding.md R83, R111). -/
  | hk (f : FrameOperands)
  /-- PD, type code 0x20 (30_encoding.md R83, R111). -/
  | pd (f : FrameOperands)
  deriving DecidableEq, Repr

/-- One input of the block, as the host presents it. Log 1. -/
inductive PortItem where
  /-- The RESET event on the `rst` input (30_encoding.md R90). -/
  | rst
  /-- One 10-bit command word `cmd[1:0] : data[7:0]` on the byte port (30_encoding.md R90). -/
  | word (w : BitVec 10)
  /-- One whole datagram, the pseudo-instruction DGRAM (30_encoding.md R106). -/
  | datagram (bs : List Byte)
  /-- One text at the text front end, the pseudo-instruction TEXT (30_encoding.md R107). -/
  | text (t : Text)
  deriving DecidableEq, Repr

end Sys2Proof
end

