-- ==== Sys2Proof/Machine/Operands.lean ====
section
/-! DEFINITION. Operand assembly: byte order, field positions, sign reading, hexadecimal text
(20_memory.md R63, 30_encoding.md R86, R87, R99). -/

namespace Sys2Proof.Machine

/-- A 16-bit value from its two bytes, the first the more significant (20_memory.md R63). -/
def be16 (b0 b1 : Byte) : BitVec 16 :=
  b0 ++ b1

/-- A 32-bit value from its four bytes, the first the most significant (20_memory.md R63). -/
def be32 (b0 b1 b2 b3 : Byte) : BitVec 32 :=
  be16 b0 b1 ++ be16 b2 b3

/-- The high byte of a 16-bit value. -/
def hiByte (v : BitVec 16) : Byte :=
  v.extractLsb' 8 8

/-- The low byte of a 16-bit value. -/
def loByte (v : BitVec 16) : Byte :=
  v.extractLsb' 0 8

/-- The two bytes of a 16-bit value as they stand in a datagram (20_memory.md R63). -/
def be16Bytes (v : BitVec 16) : List Byte :=
  [hiByte v, loByte v]

/-- The four bytes of a 32-bit value as they stand in a datagram (20_memory.md R63). -/
def be32Bytes (v : BitVec 32) : List Byte :=
  be16Bytes (v.extractLsb' 16 16) ++ be16Bytes (v.extractLsb' 0 16)

/-- `bs[i]`; callers ask only for offsets that exist. -/
def byteAt (bs : List Byte) (i : Nat) : Byte :=
  bs.getD i 0

/-- `be16(bs, o)` (00_scope.md section 6). -/
def be16At (bs : List Byte) (o : Nat) : BitVec 16 :=
  be16 (byteAt bs o) (byteAt bs (o + 1))

/-- `be32(bs, o)` (00_scope.md section 6). -/
def be32At (bs : List Byte) (o : Nat) : BitVec 32 :=
  be32 (byteAt bs o) (byteAt bs (o + 1)) (byteAt bs (o + 2)) (byteAt bs (o + 3))

/-- `bs[a..b)` (00_scope.md section 6). -/
def slice (bs : List Byte) (a b : Nat) : List Byte :=
  (bs.take b).drop a

/-- `sext_8` (00_scope.md section 6): two's complement, PRESUMED by the spec itself (30_encoding.md R87). Log 11. -/
def sext8 (b : Byte) : Int :=
  if b.toNat < 128 then (b.toNat : Int) else (b.toNat : Int) - 256

/-- `bt mod 256`, the byte of a signed temperature (30_encoding.md R110). -/
def byteOfInt (v : Int) : Byte :=
  BitVec.ofInt 8 v

/-- One hexadecimal digit in lower case (10_state.md R40, R42). -/
def hexDigitLower (n : BitVec 4) : Byte :=
  if n.toNat < 10 then BitVec.ofNat 8 (0x30 + n.toNat) else BitVec.ofNat 8 (0x57 + n.toNat)

/-- The lower-case two-digit hexadecimal rendering of a byte sequence (10_state.md R40, R42). -/
def hexLower : List Byte → Text
  | [] => []
  | b :: bs => hexDigitLower (b.extractLsb' 4 4) :: hexDigitLower (b.extractLsb' 0 4) :: hexLower bs

/-- The value of a hexadecimal digit, either letter case, or none (30_encoding.md R99). Log 11. -/
def digitVal (c : Byte) : Option (BitVec 4) :=
  if 0x30 ≤ c.toNat ∧ c.toNat ≤ 0x39 then some (BitVec.ofNat 4 (c.toNat - 0x30))
  else if 0x61 ≤ c.toNat ∧ c.toNat ≤ 0x66 then some (BitVec.ofNat 4 (c.toNat - 0x61 + 10))
  else if 0x41 ≤ c.toNat ∧ c.toNat ≤ 0x46 then some (BitVec.ofNat 4 (c.toNat - 0x41 + 10))
  else none

/-- The bytes of a frame before its trailer, offsets 0 to `N-3` (30_encoding.md R81). -/
def frameBody (type : Byte) (f : FrameOperands) : List Byte :=
  be16Bytes Config.syncConst ++ [f.len, type] ++ be16Bytes f.satid ++ be32Bytes f.ts ++ f.payload

/-- The whole datagram of a FRAME instruction, `N = 12 + PLEN` bytes (30_encoding.md R81). -/
def frameBytes (type : Byte) (f : FrameOperands) : List Byte :=
  frameBody type f ++ be16Bytes f.chk

end Sys2Proof.Machine
end

