-- ==== Sys2Proof/WellFormed.lean ====
section
/-! DEFINITION. Which instructions are well-formed: a stream command always is; a FRAME instruction is when it is a valid
frame of its kind (30_encoding.md R81, R82; spec/opcode_table.json rows HK and PD). -/

namespace Sys2Proof

/-- LEN equals N, the actual byte count (30_encoding.md R81). -/
def FrameOperands.lenOk (f : FrameOperands) : Bool :=
  f.len.toNat == 12 + f.payload.length

/-- CHK equals the checksum of every byte before the trailer (30_encoding.md R81). -/
def FrameOperands.chkOk (f : FrameOperands) (type : Byte) : Bool :=
  f.chk == Machine.checksum (Machine.frameBody type f)

/-- A housekeeping payload has at least 8 bytes (30_encoding.md R81, R84). -/
def FrameOperands.hkPayloadOk (f : FrameOperands) : Bool :=
  decide (Config.hkMinPayload ≤ f.payload.length)

/-- A well-formed instruction. The upper bound `N <= 255` follows from `lenOk` (30_encoding.md R82). -/
def Instr.wf : Instr → Bool
  | .nop _ => true
  | .start _ => true
  | .byte _ => true
  | .end_ _ => true
  | .hk f => f.lenOk && f.hkPayloadOk && f.chkOk Config.typeHk
  | .pd f => f.lenOk && f.chkOk Config.typePd

end Sys2Proof
end

