-- ==== Sys2Proof/Decode.lean ====
section
/-! DEFINITION. The decoder, total on every input and rejecting by name, and the encoder (30_encoding.md R81, R90, R91,
R110, R111). -/

namespace Sys2Proof

/-- Why an input is no instruction of the opcode table. -/
inductive Reject where
  /-- A datagram of fewer than 12 bytes has no room for the fields (30_encoding.md R81). -/
  | tooShortForAFrame
  /-- SYNC is not 0x1ACF (30_encoding.md R111). -/
  | noSync
  /-- TYPE is neither 0x10 nor 0x20 (30_encoding.md R88, R111). -/
  | noType
  /-- The RESET event is no command word (44_stream_commands.md R215). -/
  | resetEvent
  /-- A text is no command word and no byte sequence (30_encoding.md R107). -/
  | textEntry
  deriving DecidableEq, Repr

/-- What the decoder answers. -/
inductive Decoded where
  | instr (i : Instr)
  | reject (r : Reject)
  deriving DecidableEq, Repr

/-- The instruction a decoder's answer holds. -/
def Decoded.toOption : Decoded → Option Instr
  | .instr i => some i
  | .reject _ => none

/-- A command word: `cmd` is bits 9 and 8, `data` bits 7 to 0; all four commands are assigned (30_encoding.md R90, R91). -/
def decodeWord (w : BitVec 10) : Instr :=
  let data : Byte := w.extractLsb' 0 8
  if w.extractLsb' 8 2 = 0 then .nop data
  else if w.extractLsb' 8 2 = 1 then .start data
  else if w.extractLsb' 8 2 = 2 then .byte data
  else .end_ data

/-- The operands of a datagram of 12 bytes or more, at the offsets of 30_encoding.md R81. -/
def frameOperandsOf (bs : List Byte) : FrameOperands :=
  { len := Machine.byteAt bs 2
    satid := Machine.be16At bs 4
    ts := Machine.be32At bs 6
    payload := Machine.slice bs 10 (bs.length - 2)
    chk := Machine.be16At bs (bs.length - 2) }

/-- A datagram, by the opcode table's FRAME rows: SYNC and TYPE select the row (30_encoding.md R111). Its LEN, CHK and
payload length are checked by the instruction's meaning, not here: matching the row "is not sufficient". Log 5. -/
def decodeFrame (bs : List Byte) : Decoded :=
  if bs.length < Config.minLen then .reject .tooShortForAFrame
  else if Machine.be16At bs 0 ≠ Config.syncConst then .reject .noSync
  else if Machine.byteAt bs 3 = Config.typeHk then .instr (.hk (frameOperandsOf bs))
  else if Machine.byteAt bs 3 = Config.typePd then .instr (.pd (frameOperandsOf bs))
  else .reject .noType

/-- The decoder on any input of the block. -/
def decodeItem : PortItem → Decoded
  | .rst => .reject .resetEvent
  | .word w => .instr (decodeWord w)
  | .datagram bs => decodeFrame bs
  | .text _ => .reject .textEntry

/-- A command word from its two fields (30_encoding.md R90). -/
def commandWord (cmd : BitVec 2) (data : Byte) : BitVec 10 :=
  cmd ++ data

/-- The encoder: the command word of a stream command (R91), the datagram of a FRAME instruction (R81). -/
def encode : Instr → PortItem
  | .nop data => .word (commandWord 0 data)
  | .start data => .word (commandWord 1 data)
  | .byte data => .word (commandWord 2 data)
  | .end_ data => .word (commandWord 3 data)
  | .hk f => .datagram (Machine.frameBytes Config.typeHk f)
  | .pd f => .datagram (Machine.frameBytes Config.typePd f)

/-- `encode_frame` (30_encoding.md R110) as operands: LEN is the byte count and CHK the checksum of the rest. It requires
`len(payload) <= 243`. -/
def validOperands (type : Byte) (satid : BitVec 16) (ts : BitVec 32) (payload : List Byte) : FrameOperands :=
  let f : FrameOperands :=
    { len := BitVec.ofNat 8 (12 + payload.length), satid := satid, ts := ts, payload := payload, chk := 0 }
  { f with chk := Machine.checksum (Machine.frameBody type f) }

/-- The payload of `encode_hk` (30_encoding.md R110). -/
def hkPayload (bv : BitVec 16) (bt : Int) (msi : Byte) (ssr : BitVec 32) : List Byte :=
  Machine.be16Bytes bv ++ [Machine.byteOfInt bt, msi] ++ Machine.be32Bytes ssr

/-- The pseudo-instruction HKFRAME (30_encoding.md R110). -/
def encodeHk (satid : BitVec 16) (ts : BitVec 32) (bv : BitVec 16) (bt : Int) (msi : Byte) (ssr : BitVec 32) : Instr :=
  .hk (validOperands Config.typeHk satid ts (hkPayload bv bt msi ssr))

/-- The pseudo-instruction PDFRAME (30_encoding.md R110). -/
def encodePd (satid : BitVec 16) (ts : BitVec 32) (payload : List Byte) : Instr :=
  .pd (validOperands Config.typePd satid ts payload)

/-- The four bytes `SYNC : LEN : TYPE` of a FRAME row's 32-bit big-endian word, in datagram order (30_encoding.md R111). -/
def firstFourBytes (w : Nat) : List Byte :=
  Machine.be32Bytes (BitVec.ofNat 32 w)

/-- The byte count of the datagram a table word stands for: as many bytes as LEN declares, and at least the bytes the table
word gives and the shortest frame of its kind. Log 8. -/
def tableFrameLength (nbits w : Nat) : Nat :=
  let type := Machine.byteAt (firstFourBytes w) 3
  max (max (Machine.byteAt (firstFourBytes w) 2).toNat (nbits / 8)) (if type = Config.typeHk then 20 else 12)

/-- The input an opcode-table word stands for: a 10-bit command word, or a datagram whose first four bytes are bits 31..0
read big-endian and whose byte `k >= 4` is bits `8k+7 .. 8k`; the bits above `nbits` are 0. Log 8. -/
def tableItem (nbits w : Nat) : PortItem :=
  if nbits ≤ 16 ∧ w < 1024 then .word (BitVec.ofNat 10 w)
  else
    let v := w % 2 ^ max nbits 32
    .datagram (firstFourBytes v ++
      (List.range (tableFrameLength nbits v - 4)).map (fun k => BitVec.ofNat 8 (v >>> (8 * (k + 4)))))

/-- The instruction the decoder reads from an opcode-table word. -/
def decodeTableWord (nbits w : Nat) : Option Instr :=
  (decodeItem (tableItem nbits w)).toOption

/-- One row of spec/opcode_table.json: its mnemonic, mask and match. -/
structure OpcodeRow where
  mnemonic : String
  mask : Nat
  pattern : Nat
  deriving DecidableEq, Repr

/-- The CMD rows, over the 10-bit command word (30_encoding.md R111). -/
def cmdRows : List OpcodeRow :=
  [⟨"NOP", 0x300, 0x000⟩, ⟨"START", 0x300, 0x100⟩, ⟨"BYTE", 0x300, 0x200⟩, ⟨"END", 0x300, 0x300⟩]

/-- The FRAME rows, over the first four bytes read big-endian (30_encoding.md R111). -/
def frameRows : List OpcodeRow :=
  [⟨"HK", 0xFFFF00FF, 0x1ACF0010⟩, ⟨"PD", 0xFFFF00FF, 0x1ACF0020⟩]

/-- The row of an instruction. -/
def rowOf : Instr → OpcodeRow
  | .nop _ => ⟨"NOP", 0x300, 0x000⟩
  | .start _ => ⟨"START", 0x300, 0x100⟩
  | .byte _ => ⟨"BYTE", 0x300, 0x200⟩
  | .end_ _ => ⟨"END", 0x300, 0x300⟩
  | .hk _ => ⟨"HK", 0xFFFF00FF, 0x1ACF0010⟩
  | .pd _ => ⟨"PD", 0xFFFF00FF, 0x1ACF0020⟩

/-- The number a row's mask and match are over: the command word, or the first four bytes of a datagram read as one 32-bit
big-endian word (30_encoding.md R111). -/
def headWord : PortItem → Nat
  | .rst => 0
  | .word w => w.toNat
  | .datagram bs => (Machine.be32At bs 0).toNat
  | .text _ => 0

end Sys2Proof
end

