-- ==== Sys2Proof/Machine/Records.lean ====
section
/-! DEFINITION. The records of the spec: failure kinds and failures (60_exceptions.md), Frames (10_state.md R40 to R42),
rule table entries and Alerts (30_encoding.md R95 to R98), and the codes of each. -/

namespace Sys2Proof.Machine

/-- The ten failure kinds (60_exceptions.md R240). -/
inductive FailureKind where
  | emptyInput
  | oddHexLength
  | invalidHexChars
  | tooShort
  | syncMismatch
  | lengthMismatch
  | declaredLengthBelowMinimum
  | crcMismatch
  | truncatedPayload
  | unknownType
  deriving DecidableEq, Repr

/-- The code FKIND holds for a kind (60_exceptions.md R240). -/
def kindCode : FailureKind → BitVec 4
  | .emptyInput => 1
  | .oddHexLength => 2
  | .invalidHexChars => 3
  | .tooShort => 4
  | .syncMismatch => 5
  | .lengthMismatch => 6
  | .declaredLengthBelowMinimum => 7
  | .crcMismatch => 8
  | .truncatedPayload => 9
  | .unknownType => 10

/-- A classified failure: a kind and its context CTX_OFF, CTX_EXP, CTX_ACT (60_exceptions.md R242, R244). -/
structure Failure where
  kind : FailureKind
  off : BitVec 16
  exp : BitVec 16
  act : BitVec 16
  deriving DecidableEq, Repr

/-- The source's Frame `kind` (10_state.md R26, R39). -/
inductive FrameKind where
  | housekeeping
  | payloadData
  deriving DecidableEq, Repr

/-- The fields of a Housekeeping Frame (10_state.md R41). -/
structure HkFields where
  /-- `battery_voltage_mv`, unsigned. -/
  bv : BitVec 16
  /-- `battery_temp_c`, signed. -/
  bt : Int
  /-- `msi_temperature_c`, unsigned. -/
  msi : Byte
  /-- `ssr_used_mb`, unsigned. -/
  ssr : BitVec 32
  deriving DecidableEq, Repr

/-- The two variants of a Frame (10_state.md R41, R42): `kind` and the variant's own fields. -/
inductive FrameBody where
  | housekeeping (h : HkFields)
  | payloadData (payload : List Byte) (payloadHex : Text) (payloadLength : Nat)
  deriving DecidableEq, Repr

/-- The Frame (10_state.md R40). -/
structure Frame where
  satid : BitVec 16
  ts : BitVec 32
  raw : List Byte
  rawHex : Text
  body : FrameBody
  deriving DecidableEq, Repr

/-- What `decode_bytes` and `decode_text` return: a Frame, or one failure kind with its context (42_frame_decoder.md R160). -/
inductive DecodeResult where
  | frame (f : Frame)
  | failed (x : Failure)
  deriving DecidableEq, Repr

/-- A rule table entry `(LEVEL, FSEL, OP, THR, MSG)` (30_encoding.md R97). -/
structure RuleEntry where
  level : BitVec 2
  fsel : BitVec 3
  op : BitVec 3
  thr : BitVec 32
  msg : Byte
  deriving DecidableEq, Repr

/-- An alert record `(LEVEL, FSEL, VALUE, MSG, SATID, TS, PTS)` (30_encoding.md R98). -/
structure Alert where
  level : BitVec 2
  fsel : BitVec 3
  value : BitVec 32
  msg : Byte
  satid : BitVec 16
  ts : BitVec 32
  pts : BitVec 32
  deriving DecidableEq, Repr

end Sys2Proof.Machine
end

