-- ==== Sys2Proof/Machine/State.lean ====
section
/-! DEFINITION. The state of the TFC (10_state.md), its reset value (R45), and the reasons a step can stop. -/

namespace Sys2Proof.Machine

/-- STATE: one bit (10_state.md R21). -/
inductive Phase where
  /-- IDLE = 0: no datagram is open. -/
  | idle
  /-- RECV = 1: a START has been taken and no END yet. -/
  | recv
  deriving DecidableEq, Repr

/-- RES: two bits (10_state.md R26). -/
inductive Res where
  /-- NONE = 0. -/
  | none
  /-- OK_HK = 1. -/
  | okHk
  /-- OK_PD = 2. -/
  | okPd
  /-- FAIL = 3. -/
  | fail
  deriving DecidableEq, Repr

/-- The frame buffer as (address, byte) pairs, addresses strictly rising and below 255; an address that is not listed holds
an unspecified byte (10_state.md R30, R45, 20_memory.md R60). Log 4. -/
abbrev Memory := List Host.Cell

/-- The whole state: the tuple of 10_state.md R20, then the model's own fields (logs 1, 4, 6). -/
structure State where
  /-- STATE (R21). -/
  phase : Phase
  /-- COUNT (R24). -/
  count : BitVec 16
  /-- CRC (R22). -/
  crc : BitVec 16
  /-- T1 (R23). -/
  t1 : Byte
  /-- T0 (R23). -/
  t0 : Byte
  /-- FB (R30). -/
  fb : Memory
  /-- RVALID (R25). -/
  rvalid : Bool
  /-- RES (R26). -/
  res : Res
  /-- FKIND (R27). -/
  fkind : BitVec 4
  /-- CTX_OFF (R28). -/
  ctxOff : BitVec 16
  /-- CTX_EXP (R28). -/
  ctxExp : BitVec 16
  /-- CTX_ACT (R28). -/
  ctxAct : BitVec 16
  /-- PERR (R29). -/
  perr : Bool
  /-- The model's own: how many RESET events have been taken. Log 4. -/
  fbEpoch : Nat
  /-- The model's own: the normalised text behind the current datagram, if it came through TF (R40). Log 6. -/
  rawText : Option Text
  /-- The model's own: TF's report for the last text, if it failed there (41_text_front_end.md R150). Log 6. -/
  textFail : Option Failure
  /-- The model's own: the inputs presented and not yet taken, oldest first. Log 1. -/
  port : List PortItem
  deriving DecidableEq, Repr

/-- Reasons to stop with a fault: none. "Nothing in TFC is fatal" (60_exceptions.md R260), and port misuse only sets PERR
(44_stream_commands.md R217). Log 7. -/
inductive Fault where
  deriving DecidableEq, Repr

/-- Reasons to answer that there is no meaning. -/
inductive Refusal where
  /-- Raised by exec's arm of an instruction that has no meaning yet: no arm raises it. Safe. -/
  | notModelled (mnemonic : String)
  deriving DecidableEq, Repr

/-- The state after RESET (10_state.md R45, 70_reset_and_hazards.md R280, R281), with nothing presented. Logs 1, 3, 4, 6. -/
def State.reset : State :=
  { phase := .idle, count := 0, crc := 0, t1 := 0, t0 := 0, fb := [], rvalid := false, res := .none, fkind := 0,
    ctxOff := 0, ctxExp := 0, ctxAct := 0, perr := false, fbEpoch := 0, rawText := none, textFail := none, port := [] }

end Sys2Proof.Machine
end

