-- ==== Sys2Proof/Machine/FrameDecoder.lean ====
section
/-! DEFINITION. Unit FD, the frame decoder as one function over a whole datagram (42_frame_decoder.md R160 to R173). -/

namespace Sys2Proof.Machine

/-- The housekeeping fields of a datagram (R170). -/
def hkFieldsOf (bs : List Byte) : HkFields :=
  { bv := be16At bs 10, bt := sext8 (byteAt bs 12), msi := byteAt bs 13, ssr := be32At bs 14 }

/-- PAYLOAD, `bs[10..N-2)` (R168). -/
def payloadOf (bs : List Byte) : List Byte :=
  slice bs 10 (bs.length - 2)

/-- The Frame a datagram that passed every check stands for, with the variant given (R170, R171). At the byte entry
`raw_hex` is the lower-case rendering of the bytes (10_state.md R40). -/
def frameOf (bs : List Byte) (body : FrameBody) : Frame :=
  { satid := be16At bs 4, ts := be32At bs 6, raw := bs, rawHex := hexLower bs, body := body }

/-- The housekeeping sub-decode (R170). -/
def decodeHk (bs : List Byte) : DecodeResult :=
  if bs.length - 12 < Config.hkMinPayload then
    .failed ⟨.truncatedPayload, 10, 8, BitVec.ofNat 16 (bs.length - 12)⟩
  else .frame (frameOf bs (.housekeeping (hkFieldsOf bs)))

/-- The payload-data frame (R171). -/
def decodePd (bs : List Byte) : DecodeResult :=
  .frame (frameOf bs (.payloadData (payloadOf bs) (hexLower (payloadOf bs)) (bs.length - 12)))

/-- Dispatch by type code (R169, R172). -/
def decodeByType (bs : List Byte) : DecodeResult :=
  if byteAt bs 3 = Config.typeHk then decodeHk bs
  else if byteAt bs 3 = Config.typePd then decodePd bs
  else .failed ⟨.unknownType, 3, 0, (byteAt bs 3).setWidth 16⟩

/-- `decode_bytes`, whole (R173). -/
def decodeBytes (bs : List Byte) : DecodeResult :=
  let n := bs.length
  let sync := be16At bs 0
  let len := byteAt bs 2
  let computed := checksum (slice bs 0 (n - 2))
  let chk := be16At bs (n - 2)
  if n = 0 then .failed ⟨.emptyInput, 0, 0, 0⟩
  else if n < Config.minLen then .failed ⟨.tooShort, 0, 12, BitVec.ofNat 16 n⟩
  else if sync ≠ Config.syncConst then .failed ⟨.syncMismatch, 0, Config.syncConst, sync⟩
  else if len.toNat ≠ n then .failed ⟨.lengthMismatch, 2, len.setWidth 16, BitVec.ofNat 16 (min n 65535)⟩
  else if len.toNat < Config.minLen then .failed ⟨.declaredLengthBelowMinimum, 2, 12, len.setWidth 16⟩
  else if computed ≠ chk then .failed ⟨.crcMismatch, BitVec.ofNat 16 (n - 2), computed, chk⟩
  else decodeByType bs

end Sys2Proof.Machine
end

