-- ==== Sys2Proof/Machine/TextFrontEnd.lean ====
section
/-! DEFINITION. Unit TF, the text front end (41_text_front_end.md R140 to R148). -/

namespace Sys2Proof.Machine

/-- The set WS (R142), PRESUMED by the spec itself (ASCII whitespace). Log 11. -/
def isWs (c : Byte) : Bool :=
  (0x09 ≤ c.toNat && c.toNat ≤ 0x0D) || c.toNat == 0x20

/-- `strip` (R142): both ends only. -/
def strip (s : Text) : Text :=
  ((s.dropWhile isWs).reverse.dropWhile isWs).reverse

/-- The optional `0x` prefix, removed once (R143). -/
def dropHexPrefix : Text → Text
  | a :: b :: rest => if a = 0x30 ∧ b = 0x78 then rest else a :: b :: rest
  | s => s

/-- Line feed or carriage return (R144). -/
def isNewline (c : Byte) : Bool :=
  c == 0x0A || c == 0x0D

/-- Embedded newlines removed, wherever they stand (R144). -/
def dropNewlines (s : Text) : Text :=
  s.filter (fun c => !isNewline c)

/-- `normalise` (R142 to R144). -/
def normalise (s : Text) : Text :=
  dropNewlines (dropHexPrefix (strip s))

/-- The index and code of the first character that is not a hexadecimal digit, counting from `k` (R147). -/
def firstNonDigit (k : Nat) : Text → Option (Nat × Byte)
  | [] => none
  | c :: s => if (digitVal c).isNone then some (k, c) else firstNonDigit (k + 1) s

/-- The digit value of a character known to be a digit (R99). -/
def digit (c : Byte) : BitVec 4 :=
  (digitVal c).getD 0

/-- The bytes of a text of digits, two digits a byte, the first the high four bits (R147). -/
def hexPairs : Text → List Byte
  | a :: b :: s => (digit a ++ digit b) :: hexPairs s
  | _ => []

/-- What steps 1 to 3 of the source's decoder give: the normalised text and its bytes, or TF's own failure. -/
inductive TextResult where
  | bytes (t : Text) (bs : List Byte)
  | failed (x : Failure)
  deriving DecidableEq, Repr

/-- `hex_to_bytes` of a text of even length (R147). -/
def hexToBytes (t : Text) : TextResult :=
  match firstNonDigit 0 t with
  | some (k, c) => .failed ⟨.invalidHexChars, BitVec.ofNat 16 k, 0, c.setWidth 16⟩
  | none => .bytes t (hexPairs t)

/-- Steps 1 to 3 (R140, R145, R146, R147). -/
def textToBytes (s : Text) : TextResult :=
  let t := normalise s
  if t.length = 0 then .failed ⟨.emptyInput, 0, 0, 0⟩
  else if t.length % 2 = 1 then .failed ⟨.oddHexLength, 0, 0, BitVec.ofNat 16 t.length⟩
  else hexToBytes t

/-- A Frame that came through TF: `raw_hex` is the normalised text (R148). -/
def withRawHex (t : Text) : DecodeResult → DecodeResult
  | .frame f => .frame { f with rawHex := t }
  | .failed x => .failed x

/-- `decode_text` (R140). -/
def decodeText (s : Text) : DecodeResult :=
  match textToBytes s with
  | .failed x => .failed x
  | .bytes t bs => withRawHex t (decodeBytes bs)

end Sys2Proof.Machine
end

