-- ==== Sys2Proof/Machine/Ops.lean ====
section
/-! DEFINITION. The named operations over the frame buffer and the registers: reading and writing FB (20_memory.md R61,
R62), the counter (10_state.md R24), opening a datagram (44_stream_commands.md R212), TAKING A FAILURE and returning from
one (60_exceptions.md R244, R246), and RESET (R215). -/

namespace Sys2Proof.Machine

/-- What a frame buffer lists at an address; an unlisted address has no listed value (log 4). -/
def Memory.read : Memory → Nat → Option Byte
  | [], _ => none
  | (k, v) :: m, a => if k = a then some v else Memory.read m a

/-- `FB[a] <- v`, keeping the addresses strictly rising (20_memory.md R61). -/
def Memory.write : Memory → Nat → Byte → Memory
  | [], a, v => [(a, v)]
  | (k, w) :: m, a, v =>
    if k = a then (a, v) :: m
    else if a < k then (a, v) :: (k, w) :: m
    else (k, w) :: Memory.write m a v

/-- The canonical form: addresses strictly rising and inside FB (20_memory.md R60). -/
abbrev Memory.wf (m : Memory) : Prop :=
  m.Pairwise (fun c d => c.1 < d.1) ∧ ∀ c ∈ m, c.1 < Config.fbSize

/-- `FB[a]`: the byte written there, else the unspecified content FB has had since the last RESET (10_state.md R45). -/
def State.fbByte (s : State) (a : Nat) : Byte :=
  (s.fb.read a).getD (Config.unwrittenByte s.fbEpoch a)

/-- `MemRead(a, n)` as a sequence (20_memory.md R62); the host's condition on it stands in Views.lean. -/
def State.fbRange (s : State) (a n : Nat) : List Byte :=
  (List.range n).map (fun i => s.fbByte (a + i))

/-- `be16(FB, a)` (20_memory.md R63). -/
def State.fbBe16 (s : State) (a : Nat) : BitVec 16 :=
  be16 (s.fbByte a) (s.fbByte (a + 1))

/-- `be32(FB, a)` (20_memory.md R63). -/
def State.fbBe32 (s : State) (a : Nat) : BitVec 32 :=
  be32 (s.fbByte a) (s.fbByte (a + 1)) (s.fbByte (a + 2)) (s.fbByte (a + 3))

/-- `MemWrite(COUNT, 1, b)` if COUNT < 255; a later byte is stored nowhere (20_memory.md R61). -/
def State.storeByte (s : State) (b : Byte) : Memory :=
  if s.count.toNat < Config.fbSize then s.fb.write s.count.toNat b else s.fb

/-- `sat_inc` (10_state.md R24). -/
def satInc (c : BitVec 16) : BitVec 16 :=
  if c.toNat < Config.countMax then c + 1 else c

/-- The register writes of START (44_stream_commands.md R212); they are also the return from a failure
(60_exceptions.md R246): the outcome of the last datagram is cleared. -/
def State.openDatagram (s : State) : State :=
  { s with
    phase := .recv, count := 0, crc := Config.crcInit, t1 := 0, t0 := 0, rvalid := false, res := .none, fkind := 0,
    ctxOff := 0, ctxExp := 0, ctxAct := 0, rawText := none }

/-- The register writes of BYTE in RECV, all from the values before the step (44_stream_commands.md R213). -/
def State.receiveByte (s : State) (b : Byte) : State :=
  { s with
    crc := if 2 ≤ s.count.toNat then crcUpdateByte s.crc s.t1 else s.crc
    t1 := s.t0
    t0 := b
    fb := s.storeByte b
    count := satInc s.count }

/-- TAKING A FAILURE, at END (60_exceptions.md R244): nothing is saved anywhere else, no vector, no mode. -/
def State.takeFailure (s : State) (x : Failure) : State :=
  { s with
    res := .fail, fkind := kindCode x.kind, ctxOff := x.off, ctxExp := x.exp, ctxAct := x.act, rvalid := true,
    phase := .idle }

/-- A Frame exists, at END (44_stream_commands.md R214, case `Ok(k)`). -/
def State.acceptFrame (s : State) (r : Res) : State :=
  { s with
    res := r, fkind := 0, ctxOff := 0, ctxExp := 0, ctxAct := 0, rvalid := true, phase := .idle }

/-- The RESET event: every register from the table of 10_state.md R45, FB becomes unspecified again, and the inputs not yet
taken stay (44_stream_commands.md R215). Logs 1, 4, 6. -/
def State.resetEvent (s : State) : State :=
  { State.reset with fbEpoch := s.fbEpoch + 1, port := s.port }

end Sys2Proof.Machine
end

