-- ==== Sys2Proof/Machine/Flags.lean ====
section
/-! DEFINITION. The flags: PERR on misuse (10_state.md R29, 44_stream_commands.md R217) and the codes of the one- and two-bit
status registers (10_state.md R21, R26). The FIRE bits are views (Views.lean). -/

namespace Sys2Proof.Machine

/-- The code of STATE (10_state.md R21). -/
def phaseCode : Phase → BitVec 1
  | .idle => 0
  | .recv => 1

/-- The code of RES (10_state.md R26). -/
def resCode : Res → BitVec 2
  | .none => 0
  | .okHk => 1
  | .okPd => 2
  | .fail => 3

/-- `PERR <- 1` and nothing else (44_stream_commands.md R217). -/
def State.flagMisuse (s : State) : State :=
  { s with perr := true }

/-- PERR after a START: sticky, set when a datagram was open (44_stream_commands.md R212, R217). -/
def State.perrAfterStart (s : State) : Bool :=
  s.perr || s.phase == .recv

end Sys2Proof.Machine
end

