-- ==== Sys2Proof/Machine/StreamCommands.lean ====
section
/-! DEFINITION. The meanings of NOP, START, BYTE and END (44_stream_commands.md R211 to R214, R217), and a whole datagram at
the byte port (30_encoding.md R106). -/

namespace Sys2Proof.Machine

/-- START (R212). -/
def startCommand (s : State) : State :=
  { s.openDatagram with perr := s.perrAfterStart }

/-- BYTE (R213). -/
def byteCommand (b : Byte) (s : State) : State :=
  match s.phase with
  | .idle => s.flagMisuse
  | .recv => s.receiveByte b

/-- The outcome END gives a datagram (R214). -/
inductive Verdict where
  /-- `Ok(OK_HK)`. -/
  | okHk
  /-- `Ok(OK_PD)`. -/
  | okPd
  /-- `Fail(kind, o, e, a)`. -/
  | fail (x : Failure)
  deriving DecidableEq, Repr

/-- The housekeeping arm of END's dispatch (R214, 42_frame_decoder.md R170). -/
def verdictHk (s : State) : Verdict :=
  if s.count.toNat - 12 < Config.hkMinPayload then .fail ⟨.truncatedPayload, 10, 8, s.count - 12⟩ else .okHk

/-- The payload-data arm of END's dispatch (R214, 42_frame_decoder.md R171): every payload is accepted. -/
def verdictPd (_ : State) : Verdict :=
  .okPd

/-- END's dispatch on the type byte (R214, 42_frame_decoder.md R169, R172). -/
def verdictByType (s : State) : Verdict :=
  if s.fbByte 3 = Config.typeHk then verdictHk s
  else if s.fbByte 3 = Config.typePd then verdictPd s
  else .fail ⟨.unknownType, 3, 0, (s.fbByte 3).setWidth 16⟩

/-- END's checks, in the source's order (R214). -/
def verdict (s : State) : Verdict :=
  let n := s.count.toNat
  if n = 0 then .fail ⟨.emptyInput, 0, 0, 0⟩
  else if n < Config.minLen then .fail ⟨.tooShort, 0, 12, s.count⟩
  else if s.fbBe16 0 ≠ Config.syncConst then .fail ⟨.syncMismatch, 0, Config.syncConst, s.fbBe16 0⟩
  else if (s.fbByte 2).toNat ≠ n then .fail ⟨.lengthMismatch, 2, (s.fbByte 2).setWidth 16, s.count⟩
  else if (s.fbByte 2).toNat < Config.minLen then
    .fail ⟨.declaredLengthBelowMinimum, 2, 12, (s.fbByte 2).setWidth 16⟩
  else if s.crc ≠ be16 s.t1 s.t0 then .fail ⟨.crcMismatch, s.count - 2, s.crc, be16 s.t1 s.t0⟩
  else verdictByType s

/-- The register writes of END for an outcome (R214). -/
def State.settle (s : State) : Verdict → State
  | .okHk => s.acceptFrame .okHk
  | .okPd => s.acceptFrame .okPd
  | .fail x => s.takeFailure x

/-- END (R214). -/
def endCommand (s : State) : State :=
  match s.phase with
  | .idle => s.flagMisuse
  | .recv => s.settle (verdict s)

/-- BYTE commands one after the other. -/
def byteCommands : List Byte → State → State
  | [], s => s
  | b :: bs, s => byteCommands bs (byteCommand b s)

/-- One whole datagram at the byte port: `DGRAM bs` is START, a BYTE for each byte, END (30_encoding.md R106). -/
def presentDatagram (bs : List Byte) (s : State) : State :=
  endCommand (byteCommands bs (startCommand s))

/-- NOP (R211). -/
def execNop (_data : Byte) (s : State) : Host.Outcome State Fault Refusal :=
  .next s

/-- START (R212); `data` is ignored (30_encoding.md R91). -/
def execStart (_data : Byte) (s : State) : Host.Outcome State Fault Refusal :=
  .next (startCommand s)

/-- BYTE (R213). -/
def execByte (data : Byte) (s : State) : Host.Outcome State Fault Refusal :=
  .next (byteCommand data s)

/-- END (R214); `data` is ignored (30_encoding.md R91). -/
def execEnd (_data : Byte) (s : State) : Host.Outcome State Fault Refusal :=
  .next (endCommand s)

end Sys2Proof.Machine
end

