-- ==== Sys2Proof/Machine/FrameKinds.lean ====
section
/-! DEFINITION. The meanings of the FRAME instructions HK and PD (42_frame_decoder.md R170, R171): the block takes the whole
datagram at its byte port (44_stream_commands.md R218), so that the frame is accepted or its failure is taken. Log 2. -/

namespace Sys2Proof.Machine

/-- HK (42_frame_decoder.md R170). -/
def execHk (f : FrameOperands) (s : State) : Host.Outcome State Fault Refusal :=
  .next (presentDatagram (frameBytes Config.typeHk f) s)

/-- PD (42_frame_decoder.md R171). -/
def execPd (f : FrameOperands) (s : State) : Host.Outcome State Fault Refusal :=
  .next (presentDatagram (frameBytes Config.typePd f) s)

end Sys2Proof.Machine
end

