-- ==== Sys2Proof/Machine/Dispatch.lean ====
section
/-! DEFINITION. One arm per instruction. -/

namespace Sys2Proof.Machine

-- The meaning of an instruction: one arm per row of spec/opcode_table.json.
def exec (i : Instr) (s : State) : Host.Outcome State Fault Refusal :=
  match i with
  | .nop data => Sys2Proof.Machine.execNop data s
  | .start data => Sys2Proof.Machine.execStart data s
  | .byte data => Sys2Proof.Machine.execByte data s
  | .end_ data => Sys2Proof.Machine.execEnd data s
  | .hk f => Sys2Proof.Machine.execHk f s
  | .pd f => Sys2Proof.Machine.execPd f s

end Sys2Proof.Machine
end

