-- ==== Sys2Proof/Machine/Port.lean ====
section
/-! DEFINITION. Taking one input of the block: the RESET event, a command word, a datagram, a text (30_encoding.md R90, R106,
R107, 41_text_front_end.md R150, 44_stream_commands.md R210). Logs 1, 2, 3, 6. -/

namespace Sys2Proof.Machine

/-- A text whose steps 1 to 3 gave bytes: one DGRAM of them; the Frame's `raw_hex` is the normalised text (R107, R148, R150). -/
def State.presentText (s : State) (t : Text) (bs : List Byte) : State :=
  { presentDatagram bs s with rawText := some t, textFail := none }

/-- A text that fails in TF: TF reports it and the byte side is untouched (R150). -/
def State.reportText (s : State) (x : Failure) : State :=
  { s with textFail := some x }

/-- One text at the text front end (R107, R150). -/
def takeText (t : Text) (s : State) : State :=
  match textToBytes t with
  | .failed x => s.reportText x
  | .bytes u bs => s.presentText u bs

/-- One datagram: an instruction of the table if it matches a FRAME row; otherwise it is presented all the same, and END
classifies its failure (42_frame_decoder.md R160). -/
def takeDatagram (bs : List Byte) (s : State) : Host.Outcome State Fault Refusal :=
  match decodeFrame bs with
  | .instr i => exec i s
  | .reject _ => .next (presentDatagram bs s)

/-- One input, already off the port. -/
def takeItem (item : PortItem) (s : State) : Host.Outcome State Fault Refusal :=
  match item with
  | .rst => .next s.resetEvent
  | .word w => exec (decodeWord w) s
  | .datagram bs => takeDatagram bs s
  | .text t => .next (takeText t s)

/-- The command words of `DGRAM bs`: START, a BYTE for each byte, END (30_encoding.md R90, R91, R106); the ignored `data` is 0. -/
def dgramWords (bs : List Byte) : List (BitVec 10) :=
  commandWord 1 0 :: (bs.map (commandWord 2) ++ [commandWord 3 0])

/-- The command words an input puts on the byte port. RESET comes on the separate input `rst` (30_encoding.md R90); a text that
fails in TF presents nothing there at all, one that does not is the DGRAM of its bytes (R107, 41_text_front_end.md R150). -/
def wordsOf : PortItem → List (BitVec 10)
  | .rst => []
  | .word w => [w]
  | .datagram bs => dgramWords bs
  | .text t =>
    match textToBytes t with
    | .failed _ => []
    | .bytes _ bs => dgramWords bs

/-- The oldest input is off the port. -/
def State.withPort (s : State) (items : List PortItem) : State :=
  { s with port := items }

/-- One step: the oldest input is taken; with nothing presented the block stays as it is, "TFC never moves on its own"
(44_stream_commands.md R210). -/
def stepPort (s : State) : Host.Outcome State Fault Refusal :=
  match s.port with
  | [] => .next s
  | item :: rest => takeItem item (s.withPort rest)

end Sys2Proof.Machine
end

