-- ==== Sys2Proof/Machine/Step.lean ====
section
/-! DEFINITION. The step of the machine. -/

namespace Sys2Proof.Machine

/-- One step (44_stream_commands.md R210): the oldest input on the port is taken. -/
def step (s : State) : Host.Outcome State Fault Refusal :=
  stepPort s

/-- The state with an opcode-table word presented as the very next input. Logs 3, 8. -/
def State.withFetchWord (s : State) (nbits w : Nat) : State :=
  s.withPort (tableItem nbits w :: s.port)

end Sys2Proof.Machine
end

