-- ==== Sys2Proof/Machine/Evaluator.lean ====
section
/-! DEFINITION. Unit HE, the Health Evaluator (43_health_evaluator.md R190 to R200). -/

namespace Sys2Proof.Machine

/-- LEVEL code of RED (30_encoding.md R95). -/
def levelRed : BitVec 2 := 1
/-- LEVEL code of YELLOW (30_encoding.md R95). -/
def levelYellow : BitVec 2 := 2

/-- `field(f, FSEL)` (R200), or none where FSEL names no field (R197). -/
def fieldValue (h : HkFields) (fsel : BitVec 3) : Option Int :=
  match fsel.toNat with
  | 0 => some (h.bv.toNat : Int)
  | 1 => some h.bt
  | 2 => some (h.msi.toNat : Int)
  | 3 => some (h.ssr.toNat : Int)
  | _ => none

/-- `pred(OP, v, t)` (R191). OP 6 and 7 are in no well-formed table (R196); there it is false. -/
def predHolds (op : BitVec 3) (v t : Int) : Bool :=
  match op.toNat with
  | 0 => decide (v > t)
  | 1 => decide (v < t)
  | 2 => decide (v ≥ t)
  | 3 => decide (v ≤ t)
  | 4 => decide (v = t)
  | 5 => decide (v ≠ t)
  | _ => false

/-- THR read as a number the way the selected field is (30_encoding.md R97). -/
def thrValue (e : RuleEntry) : Int :=
  if e.fsel = 1 then e.thr.toInt else (e.thr.toNat : Int)

/-- Whether an entry fires on a Housekeeping Frame's fields (R191, R193, R197). -/
def ruleFires (h : HkFields) (e : RuleEntry) : Bool :=
  match fieldValue h e.fsel with
  | none => false
  | some v => predHolds e.op v (thrValue e)

/-- The Alert of an entry (R193, R198, 30_encoding.md R98); VALUE is the field's value in 32 bits. -/
def alertOf (satid : BitVec 16) (ts : BitVec 32) (h : HkFields) (e : RuleEntry) : Alert :=
  { level := e.level, fsel := e.fsel, value := BitVec.ofInt 32 ((fieldValue h e.fsel).getD 0), msg := e.msg,
    satid := satid, ts := ts, pts := ts }

/-- THR is in the range of the selected field's type when FSEL is 0 to 3 (R196). -/
def thrInRange (e : RuleEntry) : Bool :=
  match e.fsel.toNat with
  | 0 => decide (thrValue e ≤ 65535)
  | 1 => decide (-128 ≤ thrValue e ∧ thrValue e ≤ 127)
  | 2 => decide (thrValue e ≤ 255)
  | _ => true

/-- The conditions of R196 on one entry. -/
def entryWf (e : RuleEntry) : Bool :=
  (e.level == levelRed || e.level == levelYellow) && decide (e.op.toNat ≤ 5) && thrInRange e

/-- Every RED entry stands before every YELLOW entry (R196). -/
def redBeforeYellow : List RuleEntry → Bool
  | [] => true
  | e :: es => (e.level != levelYellow || es.all (fun d => d.level != levelRed)) && redBeforeYellow es

/-- A well-formed rule table (R196). -/
def rulesWf (es : List RuleEntry) : Bool :=
  es.all entryWf && redBeforeYellow es

/-- RULES: a model takes only well-formed tables (R196). -/
structure RuleTable where
  entries : List RuleEntry
  wf : rulesWf entries = true

/-- Building the block with a table; an ill-formed one is refused (R196, 93_implementation_defined.md V5). -/
def buildRules (es : List RuleEntry) : Option RuleTable :=
  if h : rulesWf es = true then some ⟨es, h⟩ else none

/-- The RED rule, entry 0 of the default table (R192, R194). -/
def redRule : RuleEntry :=
  { level := levelRed, fsel := 2, op := 0, thr := 40, msg := 0 }

/-- The YELLOW rule, entry 1 of the default table (R192, R195). -/
def yellowRule : RuleEntry :=
  { level := levelYellow, fsel := 0, op := 1, thr := 12000, msg := 1 }

/-- The default table (R192). -/
def defaultRules : RuleTable :=
  ⟨[redRule, yellowRule], by decide⟩

/-- NRULES (00_scope.md R6). -/
def RuleTable.size (rules : RuleTable) : Nat :=
  rules.entries.length

/-- The alerts of a Housekeeping Frame's fields, in rule order (R193). -/
def evaluateHk (rules : RuleTable) (satid : BitVec 16) (ts : BitVec 32) (h : HkFields) : List Alert :=
  (rules.entries.filter (ruleFires h)).map (alertOf satid ts h)

/-- `evaluate`, "defined only for housekeeping frames" (R190): none on a PayloadData Frame. -/
def evaluate (rules : RuleTable) (f : Frame) : Option (List Alert) :=
  match f.body with
  | .housekeeping h => some (evaluateHk rules f.satid f.ts h)
  | .payloadData _ _ _ => none

end Sys2Proof.Machine
end

