-- ==== Sys2Proof/Machine/Views.lean ====
section
/-! DEFINITION. What the host can read (10_state.md R38 to R43, 20_memory.md R62, 44_stream_commands.md R221). A view outside
its condition has no value: it is `none` (R38, 93_implementation_defined.md V2, V3). Reads change nothing, so they are
functions of a state. -/

namespace Sys2Proof.Machine

/-- RES is OK_HK or OK_PD: a Frame exists (10_state.md R39). -/
def State.hasFrame (s : State) : Bool :=
  s.res == .okHk || s.res == .okPd

/-- A value under a condition, and none outside it. -/
def viewIf {α : Type} (c : Bool) (v : α) : Option α :=
  if c then some v else none

/-- N (10_state.md R39). -/
def State.viewN (s : State) : Option Nat :=
  viewIf s.hasFrame s.count.toNat

/-- KIND (10_state.md R39). -/
def State.viewKind (s : State) : Option FrameKind :=
  viewIf s.hasFrame (if s.res = .okHk then .housekeeping else .payloadData)

/-- SATID (10_state.md R39). -/
def State.viewSatid (s : State) : Option (BitVec 16) :=
  viewIf s.hasFrame (s.fbBe16 4)

/-- TS (10_state.md R39). -/
def State.viewTs (s : State) : Option (BitVec 32) :=
  viewIf s.hasFrame (s.fbBe32 6)

/-- PLEN (10_state.md R39). -/
def State.viewPlen (s : State) : Option Nat :=
  viewIf s.hasFrame (s.count.toNat - 12)

/-- PAYLOAD (10_state.md R39). -/
def State.viewPayload (s : State) : Option (List Byte) :=
  viewIf s.hasFrame (s.fbRange 10 (s.count.toNat - 12))

/-- RAW (10_state.md R39). -/
def State.viewRaw (s : State) : Option (List Byte) :=
  viewIf s.hasFrame (s.fbRange 0 s.count.toNat)

/-- `raw_hex` (10_state.md R40): the normalised text if the datagram came through TF, else the rendering of RAW. -/
def State.viewRawHex (s : State) : Option Text :=
  viewIf s.hasFrame (s.rawText.getD (hexLower (s.fbRange 0 s.count.toNat)))

/-- RES is OK_HK (10_state.md R41). -/
def State.isHk (s : State) : Bool :=
  s.res == .okHk

/-- BV (10_state.md R41). -/
def State.viewBv (s : State) : Option (BitVec 16) :=
  viewIf s.isHk (s.fbBe16 10)

/-- BT (10_state.md R41). -/
def State.viewBt (s : State) : Option Int :=
  viewIf s.isHk (sext8 (s.fbByte 12))

/-- MSI (10_state.md R41). -/
def State.viewMsi (s : State) : Option Byte :=
  viewIf s.isHk (s.fbByte 13)

/-- SSR (10_state.md R41). -/
def State.viewSsr (s : State) : Option (BitVec 32) :=
  viewIf s.isHk (s.fbBe32 14)

/-- `payload_length` (10_state.md R42). -/
def State.viewPayloadLength (s : State) : Option Nat :=
  viewIf (s.res == .okPd) (s.count.toNat - 12)

/-- `payload_hex` (10_state.md R42). -/
def State.viewPayloadHex (s : State) : Option Text :=
  viewIf (s.res == .okPd) (hexLower (s.fbRange 10 (s.count.toNat - 12)))

/-- The four housekeeping fields as FB holds them (10_state.md R41). -/
def State.hkFields (s : State) : HkFields :=
  { bv := s.fbBe16 10, bt := sext8 (s.fbByte 12), msi := s.fbByte 13, ssr := s.fbBe32 14 }

/-- The variant of the Frame (10_state.md R41, R42). -/
def State.frameBody (s : State) : FrameBody :=
  if s.isHk then .housekeeping s.hkFields
  else .payloadData (s.fbRange 10 (s.count.toNat - 12)) (hexLower (s.fbRange 10 (s.count.toNat - 12)))
    (s.count.toNat - 12)

/-- The Frame of the last datagram (10_state.md R40). -/
def State.viewFrame (s : State) : Option Frame :=
  viewIf s.hasFrame
    { satid := s.fbBe16 4, ts := s.fbBe32 6, raw := s.fbRange 0 s.count.toNat,
      rawHex := s.rawText.getD (hexLower (s.fbRange 0 s.count.toNat)), body := s.frameBody }

/-- `FIRE[i]`, `i < NRULES`, defined when RVALID = 1 (10_state.md R32, R43). -/
def State.viewFire (rules : RuleTable) (s : State) (i : Nat) : Option Bool :=
  match rules.entries[i]? with
  | none => none
  | some e => viewIf s.rvalid (s.isHk && ruleFires s.hkFields e)

/-- The alert list, `ALERT[0]`, `ALERT[1]`, ..., defined when RVALID = 1; empty unless RES is OK_HK (10_state.md R43,
43_health_evaluator.md R199). -/
def State.viewAlerts (rules : RuleTable) (s : State) : Option (List Alert) :=
  viewIf s.rvalid (if s.isHk then evaluateHk rules (s.fbBe16 4) (s.fbBe32 6) s.hkFields else [])

/-- ALERT_COUNT (10_state.md R43). -/
def State.viewAlertCount (rules : RuleTable) (s : State) : Option Nat :=
  (s.viewAlerts rules).map List.length

/-- `ALERT[k]`, `k < ALERT_COUNT` (10_state.md R43). -/
def State.viewAlert (rules : RuleTable) (s : State) (k : Nat) : Option Alert :=
  (s.viewAlerts rules).bind (fun as => as[k]?)

/-- The host's `MemRead(addr, n)`: refused unless a Frame exists and `addr + n <= N` (20_memory.md R62). -/
def State.memRead (s : State) (addr n : Nat) : Option (List Byte) :=
  viewIf (s.hasFrame && decide (addr + n ≤ s.count.toNat)) (s.fbRange addr n)

/-- The registers the host may read at any time (44_stream_commands.md R221, 10_state.md R20): RVALID, RES, FKIND, CTX_OFF,
CTX_EXP, CTX_ACT, PERR, COUNT, CRC, as codes. -/
structure HostRegisters where
  rvalid : Bool
  res : BitVec 2
  fkind : BitVec 4
  ctxOff : BitVec 16
  ctxExp : BitVec 16
  ctxAct : BitVec 16
  perr : Bool
  count : BitVec 16
  crc : BitVec 16
  deriving DecidableEq, Repr

/-- Reading the host's registers. -/
def State.hostRegisters (s : State) : HostRegisters :=
  { rvalid := s.rvalid, res := resCode s.res, fkind := s.fkind, ctxOff := s.ctxOff, ctxExp := s.ctxExp,
    ctxAct := s.ctxAct, perr := s.perr, count := s.count, crc := s.crc }

/-- Whether running an instruction takes an END: END itself, in either STATE, and a FRAME instruction, whose datagram ends with
one (44_stream_commands.md R214, 30_encoding.md R106). -/
def takesEnd : Instr → Bool
  | .nop _ => false
  | .start _ => false
  | .byte _ => false
  | .end_ _ => true
  | .hk _ => true
  | .pd _ => true

/-- Whether taking an input takes an END: any DGRAM does (30_encoding.md R106), a text does when TF hands its bytes on (R107),
RESET does not. -/
def inputTakesEnd : PortItem → Bool
  | .rst => false
  | .word w => takesEnd (decodeWord w)
  | .datagram _ => true
  | .text t =>
    match textToBytes t with
    | .failed _ => false
    | .bytes _ _ => true

/-- The optional output `done`, "that pulses at each END": whether it pulses while the oldest input is taken
(44_stream_commands.md R221). Log 12. -/
def State.donePulse (s : State) : Bool :=
  match s.port with
  | [] => false
  | item :: _ => inputTakesEnd item

/-- TF's report, an output of the block only if TF stands inside it (41_text_front_end.md R150). Log 6. -/
def State.viewTextFailure (s : State) : Option Failure :=
  if Config.hasTF then s.textFail else none

/-- `in_ready` is 1 whenever TFC is out of reset: it never refuses a command (30_encoding.md R90). -/
def State.inReady (_ : State) : Bool :=
  true

/-- The command words the oldest input puts on the byte port (30_encoding.md R90). Log 1. -/
def State.presentedWords (s : State) : List (BitVec 10) :=
  match s.port with
  | [] => []
  | item :: _ => wordsOf item

/-- `in_valid`: the host presents a command word on the byte port (30_encoding.md R90). A RESET and a text that fails in TF are
no command word. Log 1. -/
def State.inValid (s : State) : Bool :=
  !s.presentedWords.isEmpty

/-- The command word the host presents while `in_valid` is 1 (30_encoding.md R90). -/
def State.inWord (s : State) : Option (BitVec 10) :=
  s.presentedWords.head?

/-- The separate input `rst`: the oldest input is the RESET event (30_encoding.md R90). -/
def State.rstInput (s : State) : Bool :=
  match s.port with
  | [] => false
  | item :: _ => item == .rst

/-- A transfer happens: `in_valid = 1` and `in_ready = 1` (30_encoding.md R90). -/
def State.transfer (s : State) : Bool :=
  s.inValid && s.inReady

end Sys2Proof.Machine
end

