-- ==== Sys2Proof/Safety.lean ====
section
/-! DEFINITION. The terms claims use: what a safe run is (10_state.md R29, 44_stream_commands.md R217,
70_reset_and_hazards.md R298), a program and its run, what a state shows the host, and the machine's invariant. -/

namespace Sys2Proof.Safety

open Sys2Proof.Machine

/-- A state is faulted when PERR = 1 (10_state.md R29, 93_implementation_defined.md V4). -/
def faulted (s : State) : Prop :=
  s.perr = true

/-- A run is complete when no datagram is open (70_reset_and_hazards.md R298). -/
def complete (s : State) : Prop :=
  s.phase = .idle

/-- The commands the protocol allows in a STATE (44_stream_commands.md R217); a FRAME instruction starts with START. -/
def allowed : Phase → Instr → Bool
  | _, .nop _ => true
  | .idle, .start _ => true
  | .idle, .hk _ => true
  | .idle, .pd _ => true
  | .recv, .byte _ => true
  | .recv, .end_ _ => true
  | .recv, .start _ => false
  | .idle, .byte _ => false
  | .idle, .end_ _ => false
  | .recv, .hk _ => false
  | .recv, .pd _ => false

/-- A program run from a state: its instructions one after the other (00_scope.md R3). -/
def runProgram : List Instr → State → Host.Outcome State Fault Refusal
  | [], s => .next s
  | i :: is, s =>
    match exec i s with
    | .next t => runProgram is t
    | .fault r => .fault r
    | .refused r => .refused r

/-- An instruction that is a NOP. -/
def isNop : Instr → Bool
  | .nop _ => true
  | .start _ => false
  | .byte _ => false
  | .end_ _ => false
  | .hk _ => false
  | .pd _ => false

/-- A program that is START and a BYTE for each byte of `bs`, with any number of NOPs mixed in
(44_stream_commands.md R216). -/
def OpensDgram (bs : List Byte) (prog : List Instr) : Prop :=
  ∃ d, prog.filter (fun i => !isNop i) = .start d :: bs.map Instr.byte

/-- A program that is `DGRAM bs` with any number of NOPs mixed in (30_encoding.md R106, 44_stream_commands.md R218). -/
def IsDgram (bs : List Byte) (prog : List Instr) : Prop :=
  ∃ d e, prog.filter (fun i => !isNop i) = .start d :: (bs.map Instr.byte ++ [.end_ e])

/-- The views that are there when a Frame exists, all without a value (10_state.md R38, 20_memory.md R62). -/
def NoFrameViews (s : State) : Prop :=
  s.viewN = none ∧ s.viewKind = none ∧ s.viewSatid = none ∧ s.viewTs = none ∧ s.viewPlen = none ∧
  s.viewPayload = none ∧ s.viewRaw = none ∧ s.viewRawHex = none ∧ s.viewFrame = none ∧
  ∀ addr n, s.memRead addr n = none

/-- The Housekeeping views, all without a value (10_state.md R41). -/
def NoHkViews (s : State) : Prop :=
  s.viewBv = none ∧ s.viewBt = none ∧ s.viewMsi = none ∧ s.viewSsr = none

/-- The PayloadData views, all without a value (10_state.md R42). -/
def NoPdViews (s : State) : Prop :=
  s.viewPayloadLength = none ∧ s.viewPayloadHex = none

/-- The alert views, all without a value, whatever the rule table (10_state.md R43). -/
def NoAlertViews (s : State) : Prop :=
  ∀ rules : RuleTable, s.viewAlerts rules = none ∧ s.viewAlertCount rules = none ∧
    (∀ k, s.viewAlert rules k = none) ∧ ∀ i, s.viewFire rules i = none

/-- The views show exactly the fields of a Frame (10_state.md R39 to R42). -/
def ShowsFrame (t : State) (f : Frame) : Prop :=
  t.viewFrame = some f ∧ t.viewSatid = some f.satid ∧ t.viewTs = some f.ts ∧ t.viewRaw = some f.raw ∧
  t.viewRawHex = some f.rawHex ∧ t.viewN = some f.raw.length ∧ t.viewPlen = some (f.raw.length - 12) ∧
  t.viewPayload = some (payloadOf f.raw) ∧
  match f.body with
  | .housekeeping h =>
    t.res = .okHk ∧ t.viewKind = some .housekeeping ∧ t.viewBv = some h.bv ∧ t.viewBt = some h.bt ∧
    t.viewMsi = some h.msi ∧ t.viewSsr = some h.ssr ∧ NoPdViews t
  | .payloadData p hex len =>
    t.res = .okPd ∧ t.viewKind = some .payloadData ∧ t.viewPayload = some p ∧ t.viewPayloadHex = some hex ∧
    t.viewPayloadLength = some len ∧ NoHkViews t

/-- The status registers hold a failure, and no Frame has a view (60_exceptions.md R244, R245). -/
def ShowsFailure (t : State) (x : Failure) : Prop :=
  t.res = .fail ∧ t.fkind = kindCode x.kind ∧ t.ctxOff = x.off ∧ t.ctxExp = x.exp ∧ t.ctxAct = x.act ∧
  NoFrameViews t ∧ NoHkViews t ∧ NoPdViews t

/-- The state shows the outcome of a datagram and, for a rule table, its alerts (44_stream_commands.md R218). -/
def ShowsOutcome (rules : RuleTable) (t : State) : DecodeResult → Prop
  | .frame f =>
    t.phase = .idle ∧ t.rvalid = true ∧ t.fkind = 0 ∧ t.ctxOff = 0 ∧ t.ctxExp = 0 ∧ t.ctxAct = 0 ∧ ShowsFrame t f ∧
    t.viewAlerts rules = some ((evaluate rules f).getD [])
  | .failed x =>
    t.phase = .idle ∧ t.rvalid = true ∧ ShowsFailure t x ∧ t.viewAlerts rules = some []

/-- The data registers and FB are what the bytes `bs` of a datagram leave (44_stream_commands.md R216). -/
def HoldsBytes (s : State) (bs : List Byte) : Prop :=
  s.count.toNat = min bs.length 65535 ∧
  s.crc = checksum (bs.take (bs.length - 2)) ∧
  s.t0 = (if 1 ≤ bs.length then byteAt bs (bs.length - 1) else 0) ∧
  s.t1 = (if 2 ≤ bs.length then byteAt bs (bs.length - 2) else 0) ∧
  ∀ i, i < min bs.length 255 → s.fb.read i = some (byteAt bs i)

/-- The status registers hold no outcome (10_state.md R26 to R28). -/
def NoOutcome (s : State) : Prop :=
  s.rvalid = false ∧ s.res = .none ∧ s.fkind = 0 ∧ s.ctxOff = 0 ∧ s.ctxExp = 0 ∧ s.ctxAct = 0

/-- The status registers hold the outcome `decode_bytes` gives (44_stream_commands.md R218). -/
def HasOutcome (s : State) : DecodeResult → Prop
  | .frame f =>
    s.rvalid = true ∧ s.fkind = 0 ∧ s.ctxOff = 0 ∧ s.ctxExp = 0 ∧ s.ctxAct = 0 ∧
    s.res = (match f.body with
      | .housekeeping _ => Res.okHk
      | .payloadData _ _ _ => Res.okPd)
  | .failed x =>
    s.rvalid = true ∧ s.fkind = kindCode x.kind ∧ s.ctxOff = x.off ∧ s.ctxExp = x.exp ∧ s.ctxAct = x.act ∧
    s.res = .fail

/-- The invariant of the machine. FB keeps its canonical form, and there is a datagram `bs` that the registers describe:
the bytes taken so far while RECV, with no outcome; or, in IDLE, the last datagram with the outcome `decode_bytes` gives it,
or no datagram at all after a RESET. A kept text is one that TF turned into these bytes. -/
def Inv (s : State) : Prop :=
  s.fb.wf ∧
  ∃ bs, HoldsBytes s bs ∧
    (∀ t, s.rawText = some t → s.phase = .idle ∧ hexToBytes t = .bytes t bs) ∧
    (s.phase = .recv → NoOutcome s) ∧
    (s.phase = .idle → (bs = [] ∧ NoOutcome s) ∨ HasOutcome s (decodeBytes bs))

end Sys2Proof.Safety
end

