-- ==== Sys2Proof/Certificates/Slice0/Obligations.lean ====
section
/-! DEFINITION. The statements for the provers. Each docstring says which rule of spec/ it formalises. -/

open Sys2Proof Sys2Proof.Machine Sys2Proof.Safety

-- ---- Encodings ----

/-- Decoding the encoding of any instruction gives it back, every operand at every value, well-formed or not
(30_encoding.md R81, R90, R91, R111). -/
def Obligations.DecodeOfEncodeIsIdentity : Prop :=
  ∀ i : Instr, decodeItem (encode i) = .instr i

/-- Whatever input decodes to an instruction is the encoding of that instruction: no bit of a command word or of a datagram
is dropped (30_encoding.md R81, R90). -/
def Obligations.EncodeOfDecodeIsIdentity : Prop :=
  ∀ (x : PortItem) (i : Instr), decodeItem x = .instr i → encode i = x

/-- A datagram is an instruction of the table exactly when it has 12 bytes or more and its first four bytes, read as one
32-bit big-endian word, match the HK row (then it is HK) or the PD row (then it is PD) under the mask 0xFFFF00FF
(30_encoding.md R111). The 12 bytes are the model's own condition (log 5). -/
def Obligations.FrameRowsSelectTheInstruction : Prop :=
  ∀ bs : List Byte,
    ((∃ f, decodeFrame bs = .instr (.hk f)) ↔
      12 ≤ bs.length ∧ (be32At bs 0).toNat &&& 0xFFFF00FF = 0x1ACF0010) ∧
    ((∃ f, decodeFrame bs = .instr (.pd f)) ↔
      12 ≤ bs.length ∧ (be32At bs 0).toNat &&& 0xFFFF00FF = 0x1ACF0020)

/-- 30_encoding.md R91: the two high bits of a command word select the command, for every word; BYTE's operand is the low eight
bits; and the ignored `data` of NOP, START and END never changes the step. -/
def Obligations.CommandCodesSelectTheCommand : Prop :=
  (∀ w : BitVec 10,
    (w.toNat / 256 = 0 → ∃ d, decodeWord w = .nop d) ∧ (w.toNat / 256 = 1 → ∃ d, decodeWord w = .start d) ∧
    (w.toNat / 256 = 2 → decodeWord w = .byte (BitVec.ofNat 8 (w.toNat % 256))) ∧
    (w.toNat / 256 = 3 → ∃ d, decodeWord w = .end_ d)) ∧
  ∀ (d e : Byte) (s : State), exec (.nop d) s = exec (.nop e) s ∧ exec (.start d) s = exec (.start e) s ∧
    exec (.end_ d) s = exec (.end_ e) s

/-- Words written out from the spec's encodings decode to the instructions they stand for (30_encoding.md R91; programs P1,
P2 and frames F1, F4 of 95_test_vectors.md). -/
def Obligations.SampleWordsDecode : Prop :=
  decodeWord 0b0000000000#10 = .nop 0x00 ∧ decodeWord 0b0100000000#10 = .start 0x00 ∧
  decodeWord 0b1000011010#10 = .byte 0x1A ∧ decodeWord 0b1011001111#10 = .byte 0xCF ∧
  decodeWord 0b1100000000#10 = .end_ 0x00 ∧
  decodeItem (.datagram [0x1A, 0xCF, 0x14, 0x10, 0x00, 0x01, 0x65, 0x53, 0xF1, 0x00, 0x35, 0xE8, 0x16, 0x1C, 0x00, 0x00,
    0x02, 0x00, 0x5A, 0x46]) =
    .instr (.hk ⟨20, 1, 1700000000, [0x35, 0xE8, 0x16, 0x1C, 0x00, 0x00, 0x02, 0x00], 0x5A46⟩) ∧
  decodeItem (.datagram [0x1A, 0xCF, 0x0C, 0x20, 0xFF, 0xFF, 0xFF, 0xFF, 0xFF, 0xFF, 0xAB, 0x20]) =
    .instr (.pd ⟨12, 65535, 4294967295, [], 0xAB20⟩)

-- ---- The Checksum Codec ----

/-- 40_checksum_codec.md R121, on numbers: the top bit is tested before the shift and the result is reduced to 16 bits; with
the rule's corner cases and example. -/
def Obligations.CrcStepBitShiftsAndXors : Prop :=
  (∀ r : BitVec 16, (crcStepBit r).toNat =
    if 32768 ≤ r.toNat then Nat.xor (2 * r.toNat) 0x8005 % 65536 else 2 * r.toNat % 65536) ∧
  crcStepBit 0x0000 = 0x0000 ∧ crcStepBit 0x8000 = 0x8005 ∧ crcStepBit 0x4000 = 0x8000 ∧
  crcStepBit 0xFFFF = 0x7FFB ∧ crcStepBit 0x0100 = 0x0200

/-- 40_checksum_codec.md R122: the byte meets the high byte of the register, bits 7 to 0 do not change, then exactly eight
bit steps; with the rule's corner cases, the register's values on the way in two of them, and the example. -/
def Obligations.CrcUpdateByteIsEightSteps : Prop :=
  (∀ (r : BitVec 16) (b : Byte), crcUpdateByte r b =
    crcStepBit (crcStepBit (crcStepBit (crcStepBit (crcStepBit (crcStepBit (crcStepBit (crcStepBit
      (be16 (hiByte r ^^^ b) (loByte r)))))))))) ∧
  crcUpdateByte 0x0000 0x00 = 0x0000 ∧ crcUpdateByte 0x0000 0x01 = 0x8005 ∧ crcUpdateByte 0x0000 0x80 = 0x8303 ∧
  crcUpdateByte 0x0000 0xFF = 0x0202 ∧ crcUpdateByte 0x0000 0x31 = 0x80A5 ∧
  (List.range 9).map (fun n => crcSteps n (be16 0x01 0x00)) =
    [0x0100, 0x0200, 0x0400, 0x0800, 0x1000, 0x2000, 0x4000, 0x8000, 0x8005] ∧
  (List.range 9).map (fun n => crcSteps n (be16 0x80 0x00)) =
    [0x8000, 0x8005, 0x800F, 0x801B, 0x8033, 0x8063, 0x80C3, 0x8183, 0x8303]

/-- 40_checksum_codec.md R125, the incremental law. -/
def Obligations.ChecksumIsIncremental : Prop :=
  ∀ xs ys : List Byte, checksum (xs ++ ys) = crcUpdate (checksum xs) ys

/-- 40_checksum_codec.md R127, the residue law, both directions: the checksum over a sequence and a 16-bit trailer is zero
exactly when the trailer is the sequence's checksum. -/
def Obligations.ResidueIsZeroExactlyForARightTrailer : Prop :=
  ∀ (xs : List Byte) (c : BitVec 16), checksum (xs ++ [hiByte c, loByte c]) = 0x0000 ↔ c = checksum xs

/-- 40_checksum_codec.md R128, the linearity law, and leading zero bytes are invisible. -/
def Obligations.ChecksumIsLinear : Prop :=
  (∀ xs ys : List Byte, xs.length = ys.length →
    checksum (List.zipWith (· ^^^ ·) xs ys) = checksum xs ^^^ checksum ys) ∧
  ∀ xs : List Byte, checksum (0x00 :: xs) = checksum xs

/-- 40_checksum_codec.md R129: sequences of the same length that differ only within one byte, in any way, have different
checksums (a difference in exactly one bit is such a difference). -/
def Obligations.OneByteChangesTheChecksum : Prop :=
  ∀ (xs ys : List Byte) (a b : Byte), a ≠ b → checksum (xs ++ a :: ys) ≠ checksum (xs ++ b :: ys)

/-- 40_checksum_codec.md R130, the table form, with the entries the rule lists. -/
def Obligations.TableFormComputesTheSame : Prop :=
  (∀ (r : BitVec 16) (b : Byte),
    crcUpdateByte r b = (r <<< 8) ^^^ crcUpdateByte 0x0000 (hiByte r ^^^ b)) ∧
  (List.range 16).map (fun i => crcUpdateByte 0x0000 (BitVec.ofNat 8 i)) =
    [0x0000, 0x8005, 0x800F, 0x000A, 0x801B, 0x001E, 0x0014, 0x8011,
     0x8033, 0x0036, 0x003C, 0x8039, 0x0028, 0x802D, 0x8027, 0x0022] ∧
  crcUpdateByte 0x0000 0x10 = 0x8063 ∧ crcUpdateByte 0x0000 0x20 = 0x80C3 ∧ crcUpdateByte 0x0000 0x40 = 0x8183 ∧
  crcUpdateByte 0x0000 0x80 = 0x8303 ∧ crcUpdateByte 0x0000 0xFF = 0x0202

-- ---- The text front end ----

/-- 41_text_front_end.md R149: `strip` is idempotent, so normalising a stripped text changes nothing; a host's trim that takes
characters of WS off the ends changes nothing either; `normalise` itself is not idempotent, by the rule's two examples
`0x0x1A` and `0x 1A` (the latter leaves 3 characters and is OddHexLength). -/
def Obligations.StripIsIdempotent : Prop :=
  (∀ s : Text, strip (strip s) = strip s) ∧ (∀ s : Text, normalise (strip s) = normalise s) ∧
  (∀ u s v : Text, (∀ c ∈ u ++ v, isWs c = true) → normalise (u ++ s ++ v) = normalise s) ∧
  normalise [0x30, 0x78, 0x30, 0x78, 0x31, 0x41] = [0x30, 0x78, 0x31, 0x41] ∧
  normalise [0x30, 0x78, 0x31, 0x41] ≠ [0x30, 0x78, 0x31, 0x41] ∧
  normalise [0x30, 0x78, 0x20, 0x31, 0x41] = [0x20, 0x31, 0x41] ∧
  normalise [0x20, 0x31, 0x41] ≠ [0x20, 0x31, 0x41] ∧
  decodeText [0x30, 0x78, 0x20, 0x31, 0x41] = .failed ⟨.oddHexLength, 0, 0, 3⟩

/-- The three failures of TF in their order, and the hand-off (41_text_front_end.md R140, R145, R146, R147, R148): an empty
normalised text is EmptyInput; else an odd one is OddHexLength with the character count; else one whose first character
that is no digit stands at index `k` is InvalidHexChars with `k` and that character's code; else byte `i` is 16 times the
value of digit `2i` plus the value of digit `2i+1`, and the result is that of `decode_bytes` with `raw_hex` the text. -/
def Obligations.DecodeTextStepsInOrder : Prop :=
  ∀ (s t : Text), normalise s = t →
    (t = [] → decodeText s = .failed ⟨.emptyInput, 0, 0, 0⟩) ∧
    (t.length % 2 = 1 → decodeText s = .failed ⟨.oddHexLength, 0, 0, BitVec.ofNat 16 t.length⟩) ∧
    (t.length % 2 = 0 → ∀ (u v : Text) (c : Byte), t = u ++ c :: v → (∀ d ∈ u, digitVal d ≠ none) → digitVal c = none →
      decodeText s = .failed ⟨.invalidHexChars, BitVec.ofNat 16 u.length, 0, c.setWidth 16⟩) ∧
    (t ≠ [] → t.length % 2 = 0 → (∀ d ∈ t, digitVal d ≠ none) → ∃ bs : List Byte,
      2 * bs.length = t.length ∧
      (∀ i, i < bs.length → ∃ h l : BitVec 4, digitVal (byteAt t (2 * i)) = some h ∧
        digitVal (byteAt t (2 * i + 1)) = some l ∧ (byteAt bs i).toNat = 16 * h.toNat + l.toNat) ∧
      decodeText s = withRawHex t (decodeBytes bs))

/-- Text and bytes agree: decoding the lower-case hexadecimal rendering of any byte sequence, the empty one included, is
decoding the bytes (92_eei_decisions.md D4, 41_text_front_end.md R148, 10_state.md R40). -/
def Obligations.TextOfBytesDecodesAsTheBytes : Prop :=
  ∀ bs : List Byte, decodeText (hexLower bs) = decodeBytes bs

-- ---- The frame decoder ----

/-- 42_frame_decoder.md R177: no input makes `decode_bytes` or `decode_text` raise DeclaredLengthBelowMinimum. -/
def Obligations.DeclaredLengthBelowMinimumIsUnreachable : Prop :=
  (∀ (bs : List Byte) (x : Failure), decodeBytes bs = .failed x → x.kind ≠ .declaredLengthBelowMinimum) ∧
  ∀ (s : Text) (x : Failure), decodeText s = .failed x → x.kind ≠ .declaredLengthBelowMinimum

/-- 42_frame_decoder.md R176: every Frame has `12 <= N <= 255`, every Housekeeping Frame `20 <= N <= 255`. -/
def Obligations.FrameLengthBounds : Prop :=
  ∀ (bs : List Byte) (f : Frame), decodeBytes bs = .frame f →
    12 ≤ bs.length ∧ bs.length ≤ 255 ∧ ∀ h, f.body = .housekeeping h → 20 ≤ bs.length

/-- No partial Frame (42_frame_decoder.md R174, with the fields of R166, R170, R171): `decode_bytes` gives a Frame exactly when
length, sync, declared length, checksum and type are right and a housekeeping payload has 8 bytes, and then the Frame's
fields are the ones at the offsets of 30_encoding.md R81 and R84. -/
def Obligations.FrameExactlyWhenEveryCheckPasses : Prop :=
  ∀ (bs : List Byte) (f : Frame), decodeBytes bs = .frame f ↔
    12 ≤ bs.length ∧ be16At bs 0 = 0x1ACF ∧ (byteAt bs 2).toNat = bs.length ∧
    be16At bs (bs.length - 2) = checksum (bs.take (bs.length - 2)) ∧
    f.satid = be16At bs 4 ∧ f.ts = be32At bs 6 ∧ f.raw = bs ∧ f.rawHex = hexLower bs ∧
    ((byteAt bs 3 = 0x10 ∧ 20 ≤ bs.length ∧
      f.body = .housekeeping ⟨be16At bs 10, sext8 (byteAt bs 12), byteAt bs 13, be32At bs 14⟩) ∨
     (byteAt bs 3 = 0x20 ∧ f.body = .payloadData ((bs.take (bs.length - 2)).drop 10)
      (hexLower ((bs.take (bs.length - 2)).drop 10)) (bs.length - 12)))

/-- The failure of a rejected datagram: exactly when a check fails, the first one in the fixed order gives the kind, and the
context is that of the kind (42_frame_decoder.md R161 to R164, R167, R170, R172, 60_exceptions.md R242, R243). -/
def Obligations.FirstFailingCheckDecides : Prop :=
  ∀ (bs : List Byte) (x : Failure), decodeBytes bs = .failed x ↔
    (bs = [] ∧ x = ⟨.emptyInput, 0, 0, 0⟩) ∨
    (1 ≤ bs.length ∧ bs.length ≤ 11 ∧ x = ⟨.tooShort, 0, 12, BitVec.ofNat 16 bs.length⟩) ∨
    (12 ≤ bs.length ∧ be16At bs 0 ≠ 0x1ACF ∧ x = ⟨.syncMismatch, 0, 0x1ACF, be16At bs 0⟩) ∨
    (12 ≤ bs.length ∧ be16At bs 0 = 0x1ACF ∧ (byteAt bs 2).toNat ≠ bs.length ∧
      x = ⟨.lengthMismatch, 2, (byteAt bs 2).setWidth 16, BitVec.ofNat 16 (min bs.length 65535)⟩) ∨
    (12 ≤ bs.length ∧ be16At bs 0 = 0x1ACF ∧ (byteAt bs 2).toNat = bs.length ∧
      checksum (bs.take (bs.length - 2)) ≠ be16At bs (bs.length - 2) ∧
      x = ⟨.crcMismatch, BitVec.ofNat 16 (bs.length - 2), checksum (bs.take (bs.length - 2)),
        be16At bs (bs.length - 2)⟩) ∨
    (12 ≤ bs.length ∧ be16At bs 0 = 0x1ACF ∧ (byteAt bs 2).toNat = bs.length ∧
      checksum (bs.take (bs.length - 2)) = be16At bs (bs.length - 2) ∧ byteAt bs 3 = 0x10 ∧ bs.length < 20 ∧
      x = ⟨.truncatedPayload, 10, 8, BitVec.ofNat 16 (bs.length - 12)⟩) ∨
    (12 ≤ bs.length ∧ be16At bs 0 = 0x1ACF ∧ (byteAt bs 2).toNat = bs.length ∧
      checksum (bs.take (bs.length - 2)) = be16At bs (bs.length - 2) ∧ byteAt bs 3 ≠ 0x10 ∧ byteAt bs 3 ≠ 0x20 ∧
      x = ⟨.unknownType, 3, 0, (byteAt bs 3).setWidth 16⟩)

/-- 42_frame_decoder.md R178: a valid frame changed within one byte never decodes to a Frame, and the byte's offset gives the
failure kind. -/
def Obligations.CorruptionNeverDecodes : Prop :=
  ∀ (xs ys : List Byte) (a b : Byte) (f : Frame), a ≠ b → decodeBytes (xs ++ a :: ys) = .frame f →
    ∃ x : Failure, decodeBytes (xs ++ b :: ys) = .failed x ∧
      x.kind = if xs.length ≤ 1 then .syncMismatch else if xs.length = 2 then .lengthMismatch else .crcMismatch

/-- 42_frame_decoder.md R179: decoding what the encoders of 30_encoding.md R110 build gives back exactly the field values. -/
def Obligations.RoundTripOfFrames : Prop :=
  (∀ (satid : BitVec 16) (ts : BitVec 32) (bv : BitVec 16) (bt : Int) (msi : Byte) (ssr : BitVec 32),
    -128 ≤ bt → bt ≤ 127 → ∃ bs : List Byte, encode (encodeHk satid ts bv bt msi ssr) = .datagram bs ∧
      decodeBytes bs = .frame ⟨satid, ts, bs, hexLower bs, .housekeeping ⟨bv, bt, msi, ssr⟩⟩) ∧
  ∀ (satid : BitVec 16) (ts : BitVec 32) (p : List Byte), p.length ≤ 243 →
    ∃ bs : List Byte, encode (encodePd satid ts p) = .datagram bs ∧
      decodeBytes bs = .frame ⟨satid, ts, bs, hexLower bs, .payloadData p (hexLower p) p.length⟩

/-- 42_frame_decoder.md R180: a Housekeeping frame with payload bytes after the first 8 is valid, keeps them in `raw`, and its
field values do not depend on them. -/
def Obligations.ExtraHousekeepingBytesAreIgnored : Prop :=
  ∀ (satid : BitVec 16) (ts : BitVec 32) (bv : BitVec 16) (bt : Int) (msi : Byte) (ssr : BitVec 32) (extra : List Byte),
    -128 ≤ bt → bt ≤ 127 → extra.length ≤ 235 →
    ∃ bs : List Byte,
      encode (.hk (validOperands 0x10 satid ts (hkPayload bv bt msi ssr ++ extra))) = .datagram bs ∧
      bs.length = 20 + extra.length ∧ (bs.take (bs.length - 2)).drop 18 = extra ∧
      decodeBytes bs = .frame ⟨satid, ts, bs, hexLower bs, .housekeeping ⟨bv, bt, msi, ssr⟩⟩

/-- The instructions that are valid frames (spec/opcode_table.json rows HK and PD): an HK decodes to a Frame exactly when it is
well-formed, and then to a Housekeeping Frame; the same for PD and a PayloadData Frame (42_frame_decoder.md R170, R171,
30_encoding.md R81, R82). -/
def Obligations.WellFormedFramesAreTheAcceptedOnes : Prop :=
  (∀ f : FrameOperands,
    ((Instr.hk f).wf = true ↔ ∃ g, decodeBytes (frameBytes 0x10 f) = .frame g) ∧
    ((Instr.hk f).wf = true ↔ ∃ g h, decodeBytes (frameBytes 0x10 f) = .frame g ∧ g.body = .housekeeping h)) ∧
  ∀ f : FrameOperands,
    ((Instr.pd f).wf = true ↔ ∃ g, decodeBytes (frameBytes 0x20 f) = .frame g) ∧
    ((Instr.pd f).wf = true ↔ ∃ g p hex len, decodeBytes (frameBytes 0x20 f) = .frame g ∧ g.body = .payloadData p hex len)

/-- 20_memory.md R74: a mixed-width access sees the same bytes, in a datagram and in FB. -/
def Obligations.MixedWidthReadsSeeTheSameBytes : Prop :=
  (∀ s : State, (s.fbBe32 6).toNat = (s.fbBe16 6).toNat * 65536 + (s.fbBe16 8).toNat) ∧
  (∀ (s : State) (o : Nat), (s.fbBe16 o).toNat = (s.fbByte o).toNat * 256 + (s.fbByte (o + 1)).toNat) ∧
  (∀ (bs : List Byte) (o : Nat), (be32At bs o).toNat = (be16At bs o).toNat * 65536 + (be16At bs (o + 2)).toNat) ∧
  ∀ (bs : List Byte) (o : Nat), (be16At bs o).toNat = (byteAt bs o).toNat * 256 + (byteAt bs (o + 1)).toNat

-- ---- The Health Evaluator ----

/-- The default table (43_health_evaluator.md R192, R194, R195, R201): the four outcomes by the two strict, unsigned
conditions, RED first, with every field of the alert records (R198). -/
def Obligations.DefaultRulesGiveFourOutcomes : Prop :=
  ∀ (satid : BitVec 16) (ts : BitVec 32) (h : HkFields),
    evaluateHk defaultRules satid ts h =
      (if 40 < h.msi.toNat then [⟨1, 2, h.msi.setWidth 32, 0, satid, ts, ts⟩] else []) ++
      (if h.bv.toNat < 12000 then [⟨2, 0, h.bv.setWidth 32, 1, satid, ts, ts⟩] else [])

/-- What makes a rule fire (43_health_evaluator.md R191, R197, R200, 30_encoding.md R97): the comparison is on integers, signed
for `battery_temp_c` and unsigned for the rest, by the operator's code; FSEL 4 to 7 never fires. -/
def Obligations.RuleFiresByItsComparison : Prop :=
  ∀ (h : HkFields) (e : RuleEntry),
    (4 ≤ e.fsel.toNat → ruleFires h e = false) ∧
    ∀ v t : Int,
      (e.fsel = 0 ∧ v = h.bv.toNat ∧ t = e.thr.toNat ∨ e.fsel = 1 ∧ v = h.bt ∧ t = e.thr.toInt ∨
       e.fsel = 2 ∧ v = h.msi.toNat ∧ t = e.thr.toNat ∨ e.fsel = 3 ∧ v = h.ssr.toNat ∧ t = e.thr.toNat) →
      (e.op = 0 → (ruleFires h e = true ↔ v > t)) ∧ (e.op = 1 → (ruleFires h e = true ↔ v < t)) ∧
      (e.op = 2 → (ruleFires h e = true ↔ v ≥ t)) ∧ (e.op = 3 → (ruleFires h e = true ↔ v ≤ t)) ∧
      (e.op = 4 → (ruleFires h e = true ↔ v = t)) ∧ (e.op = 5 → (ruleFires h e = true ↔ v ≠ t))

/-- A table is accepted exactly when it meets the four conditions of 43_health_evaluator.md R196; any other is refused when the
block is built; the default table is well-formed. -/
def Obligations.OnlyWellFormedTablesAreBuilt : Prop :=
  (∀ es : List RuleEntry, (∃ rules, buildRules es = some rules ∧ rules.entries = es) ↔
    (∀ e ∈ es, (e.level = 1 ∨ e.level = 2) ∧ e.op.toNat ≤ 5 ∧
      (e.fsel = 0 → e.thr.toNat ≤ 65535) ∧ (e.fsel = 1 → -128 ≤ e.thr.toInt ∧ e.thr.toInt ≤ 127) ∧
      (e.fsel = 2 → e.thr.toNat ≤ 255)) ∧
    ∀ i j (hi : i < es.length) (hj : j < es.length), es[i].level = 2 → es[j].level = 1 → j < i) ∧
  (∀ es : List RuleEntry, (∀ rules, buildRules es = some rules → rules.entries = es)) ∧
  buildRules [⟨1, 2, 0, 40, 0⟩, ⟨2, 0, 1, 12000, 1⟩] = some defaultRules

/-- "RED before YELLOW" for any well-formed table and any frame (43_health_evaluator.md R193, R196, R198, 60_exceptions.md R250): in
the alert list no RED stands after a YELLOW; every alert is one of the table's entries that fires, with the record of R198; and
there is one alert per entry that fires, in rising order of the entries. -/
def Obligations.RedAlertsComeFirst : Prop :=
  ∀ (rules : RuleTable) (satid : BitVec 16) (ts : BitVec 32) (h : HkFields),
    (evaluateHk rules satid ts h).Pairwise (fun a b => a.level = 2 → b.level = 2) ∧
    (∀ a ∈ evaluateHk rules satid ts h, (a.level = 1 ∨ a.level = 2) ∧ a.satid = satid ∧ a.ts = ts ∧ a.pts = ts ∧
      ∃ e ∈ rules.entries, ruleFires h e = true ∧ a.level = e.level ∧ a.fsel = e.fsel ∧ a.msg = e.msg ∧
        (e.fsel = 0 → a.value = h.bv.setWidth 32) ∧ (e.fsel = 1 → a.value = BitVec.ofInt 32 h.bt) ∧
        (e.fsel = 2 → a.value = h.msi.setWidth 32) ∧ (e.fsel = 3 → a.value = h.ssr)) ∧
    (evaluateHk rules satid ts h).length = rules.entries.countP (ruleFires h) ∧
    (evaluateHk rules satid ts h).map (fun a => (a.level, a.fsel, a.msg)) =
      (rules.entries.filter (ruleFires h)).map (fun e => (e.level, e.fsel, e.msg))

/-- The alert views (10_state.md R43, 43_health_evaluator.md R199): with RVALID 1 and RES not OK_HK the list is empty, no ALERT[k]
has a value and every FIRE bit is 0; with RES OK_HK, FIRE[i] is whether entry `i` fires, the list is `evaluate` of the Frame's
fields, ALERT[k] is its element `k` for every `k`, and ALERT_COUNT counts the FIRE bits that are 1. That they have no value,
FIRE included, while RVALID is 0 is the model's choice between R43 and an aside of R32 (log 9). -/
def Obligations.AlertViewsFollowTheResult : Prop :=
  ∀ (rules : RuleTable) (s : State),
    (s.rvalid = false → NoAlertViews s) ∧
    (s.rvalid = true → s.res ≠ .okHk → s.viewAlerts rules = some [] ∧ s.viewAlertCount rules = some 0 ∧
      (∀ k, s.viewAlert rules k = none) ∧ ∀ i, i < rules.size → s.viewFire rules i = some false) ∧
    (s.rvalid = true → s.res = .okHk →
      (∀ i (hi : i < rules.entries.length),
        s.viewFire rules i = some (ruleFires ⟨s.fbBe16 10, sext8 (s.fbByte 12), s.fbByte 13, s.fbBe32 14⟩ rules.entries[i])) ∧
      s.viewAlerts rules = some (evaluateHk rules (s.fbBe16 4) (s.fbBe32 6)
        ⟨s.fbBe16 10, sext8 (s.fbByte 12), s.fbByte 13, s.fbBe32 14⟩) ∧
      (∀ k, s.viewAlert rules k = (evaluateHk rules (s.fbBe16 4) (s.fbBe32 6)
        ⟨s.fbBe16 10, sext8 (s.fbByte 12), s.fbByte 13, s.fbBe32 14⟩)[k]?) ∧
      s.viewAlertCount rules =
        some ((List.range rules.size).countP (fun i => s.viewFire rules i == some true)))

-- ---- The stream commands ----

/-- 44_stream_commands.md R211: NOP changes nothing, in either STATE, whatever its data. -/
def Obligations.NopChangesNothing : Prop :=
  ∀ (d : Byte) (s : State), exec (.nop d) s = .next s

/-- 44_stream_commands.md R212: what START writes, in either STATE and whatever its data, and nothing else of the tuple of 10_state.md
R20; every view loses its value. (`rawText` is the model's own field, log 6.) -/
def Obligations.StartOpensADatagram : Prop :=
  ∀ (d : Byte) (s : State), ∃ t, exec (.start d) s = .next t ∧
    t.phase = .recv ∧ t.count = 0 ∧ t.crc = 0x0000 ∧ t.t1 = 0x00 ∧ t.t0 = 0x00 ∧ t.rvalid = false ∧ t.res = .none ∧
    t.fkind = 0 ∧ t.ctxOff = 0 ∧ t.ctxExp = 0 ∧ t.ctxAct = 0 ∧
    t.perr = (if s.phase = .recv then true else s.perr) ∧
    t.fb = s.fb ∧ (∀ a, t.fbByte a = s.fbByte a) ∧ t.fbEpoch = s.fbEpoch ∧ t.textFail = s.textFail ∧ t.port = s.port ∧
    t.rawText = none ∧
    NoFrameViews t ∧ NoHkViews t ∧ NoPdViews t ∧ NoAlertViews t

/-- 44_stream_commands.md R213 and 20_memory.md R61: what BYTE writes in RECV, all from the values before the step, and its frame:
COUNT saturates at 65535, CRC takes the old T1 from the third byte on, FB changes at the old COUNT only and only below
255, every other register stays; in IDLE it sets PERR and nothing else. -/
def Obligations.ByteTakesOneByte : Prop :=
  (∀ (b : Byte) (s : State), s.phase = .recv → ∃ t, exec (.byte b) s = .next t ∧
    t.count.toNat = (if s.count.toNat < 65535 then s.count.toNat + 1 else 65535) ∧
    t.crc = (if 2 ≤ s.count.toNat then crcUpdateByte s.crc s.t1 else s.crc) ∧
    t.t1 = s.t0 ∧ t.t0 = b ∧
    (s.count.toNat < 255 → t.fbByte s.count.toNat = b) ∧
    (∀ a, (s.count.toNat < 255 → a ≠ s.count.toNat) → t.fbByte a = s.fbByte a) ∧
    t.phase = .recv ∧ t.rvalid = s.rvalid ∧ t.res = s.res ∧ t.fkind = s.fkind ∧ t.ctxOff = s.ctxOff ∧
    t.ctxExp = s.ctxExp ∧ t.ctxAct = s.ctxAct ∧ t.perr = s.perr ∧ t.fbEpoch = s.fbEpoch ∧ t.rawText = s.rawText ∧
    t.textFail = s.textFail ∧ t.port = s.port) ∧
  ∀ (b : Byte) (s : State), s.phase = .idle → exec (.byte b) s = .next { s with perr := true }

/-- 44_stream_commands.md R214: END's checks in the source's order and the registers it writes, from any state in RECV, whatever
its data; COUNT, CRC, T1, T0 and FB are not changed; in IDLE it sets PERR and nothing else. -/
def Obligations.EndDecodesTheDatagram : Prop :=
  (∀ (d : Byte) (s : State), s.phase = .recv →
    let n := s.count.toNat
    let sync := s.fbBe16 0
    let len := s.fbByte 2
    let type := s.fbByte 3
    let chk := be16 s.t1 s.t0
    let out (r : Res) (k : BitVec 4) (o e a : BitVec 16) : State :=
      { s with res := r, fkind := k, ctxOff := o, ctxExp := e, ctxAct := a, rvalid := true, phase := .idle }
    exec (.end_ d) s = .next (
      if n = 0 then out .fail 1 0 0 0
      else if n < 12 then out .fail 4 0 12 s.count
      else if sync ≠ 0x1ACF then out .fail 5 0 0x1ACF sync
      else if len.toNat ≠ n then out .fail 6 2 (len.setWidth 16) s.count
      else if len.toNat < 12 then out .fail 7 2 12 (len.setWidth 16)
      else if s.crc ≠ chk then out .fail 8 (s.count - 2) s.crc chk
      else if type = 0x10 then
        (if n - 12 < 8 then out .fail 9 10 8 (s.count - 12) else out .okHk 0 0 0 0)
      else if type = 0x20 then out .okPd 0 0 0 0
      else out .fail 10 3 0 (type.setWidth 16))) ∧
  ∀ (d : Byte) (s : State), s.phase = .idle → exec (.end_ d) s = .next { s with perr := true }

/-- The frame of END in RECV (44_stream_commands.md R214, 60_exceptions.md R244): COUNT, CRC, T1, T0, PERR, every byte of FB, and
the model's own fields stay; RVALID is 1, RES is one of the three outcomes, and FKIND and CTX are 0 when it is not FAIL. -/
def Obligations.EndLeavesTheDatagramRegisters : Prop :=
  ∀ (d : Byte) (s : State), s.phase = .recv → ∃ t, exec (.end_ d) s = .next t ∧
    t.phase = .idle ∧ t.rvalid = true ∧ t.res ≠ .none ∧
    (t.res ≠ .fail → t.fkind = 0 ∧ t.ctxOff = 0 ∧ t.ctxExp = 0 ∧ t.ctxAct = 0) ∧
    (t.res = .fail → t.fkind ∈ [1, 4, 5, 6, 8, 9, 10]) ∧
    t.count = s.count ∧ t.crc = s.crc ∧ t.t1 = s.t1 ∧ t.t0 = s.t0 ∧ t.perr = s.perr ∧
    (∀ a, t.fbByte a = s.fbByte a) ∧ t.fb = s.fb ∧ t.fbEpoch = s.fbEpoch ∧ t.rawText = s.rawText ∧
    t.textFail = s.textFail ∧ t.port = s.port

/-- 44_stream_commands.md R217, for every instruction: PERR after it is PERR before it, or 1 if the protocol does not allow the
instruction in the STATE (a FRAME instruction begins with START); PERR never goes back to 0 on an instruction, and RESET
clears it. -/
def Obligations.PerrRecordsExactlyMisuse : Prop :=
  (∀ (i : Instr) (s t : State), exec i s = .next t → t.perr = (s.perr || !allowed s.phase i)) ∧
  ∀ (s : State) (rest : List PortItem), s.port = .rst :: rest → ∃ t, step s = .next t ∧ t.perr = false

/-- 44_stream_commands.md R216: while RECV, what the registers and FB hold after START and the bytes `bs`, with any number of
NOPs mixed in. -/
def Obligations.ReceivedBytesDetermineTheRegisters : Prop :=
  ∀ (s : State) (bs : List Byte) (prog : List Instr), OpensDgram bs prog → bs.length < 65535 →
    ∃ t, runProgram prog s = .next t ∧ t.phase = .recv ∧ t.count.toNat = bs.length ∧
      t.crc = (if 2 ≤ bs.length then checksum (bs.take (bs.length - 2)) else 0x0000) ∧
      t.t0 = (if 1 ≤ bs.length then byteAt bs (bs.length - 1) else 0) ∧
      t.t1 = (if 2 ≤ bs.length then byteAt bs (bs.length - 2) else 0) ∧
      (∀ i, i < min bs.length 255 → t.fbByte i = byteAt bs i) ∧ t.rvalid = false ∧ t.res = .none

/-- The bare-checksum idiom (44_stream_commands.md R222): after START, the bytes and any two fillers, CRC holds the checksum of
the bytes. -/
def Obligations.TwoFillersExposeTheChecksum : Prop :=
  ∀ (s : State) (bs : List Byte) (x y d : Byte),
    ∃ t, runProgram (.start d :: ((bs ++ [x, y]).map Instr.byte)) s = .next t ∧ t.crc = checksum bs

/-- 44_stream_commands.md R218: agreement with the big-step functions, from any state, for any rule table, datagrams of any
length, any number of NOPs mixed in: the status registers and every view show what `decode_bytes` and `evaluate` give, and
PERR is as the rule says. -/
def Obligations.DgramAgreesWithDecodeBytes : Prop :=
  ∀ (rules : RuleTable) (s : State) (bs : List Byte) (prog : List Instr), IsDgram bs prog →
    ∃ t, runProgram prog s = .next t ∧ t.rvalid = true ∧ ShowsOutcome rules t (decodeBytes bs) ∧
      t.perr = (if s.phase = .idle then s.perr else true)

/-- 44_stream_commands.md R219: the state after `DGRAM bs`, apart from PERR and the bytes of FB from `len(bs)` on, does not depend
on the state it started from (nor on the data operands and the NOPs). The model's own fields of log 1, 4 and 6 that a datagram
does not write are not part of the claim. -/
def Obligations.DgramIsIndependentOfHistory : Prop :=
  ∀ (s s' : State) (bs : List Byte) (prog prog' : List Instr), IsDgram bs prog → IsDgram bs prog' →
    ∃ t t', runProgram prog s = .next t ∧ runProgram prog' s' = .next t' ∧
      t.phase = t'.phase ∧ t.count = t'.count ∧ t.crc = t'.crc ∧ t.t1 = t'.t1 ∧ t.t0 = t'.t0 ∧ t.rvalid = t'.rvalid ∧
      t.res = t'.res ∧ t.fkind = t'.fkind ∧ t.ctxOff = t'.ctxOff ∧ t.ctxExp = t'.ctxExp ∧ t.ctxAct = t'.ctxAct ∧
      t.rawText = t'.rawText ∧ ∀ a, a < bs.length → a < 255 → t.fbByte a = t'.fbByte a

-- ---- The FRAME instructions ----

/-- HK and PD complete from every state and on every operand, and the state shows what `decode_bytes` and `evaluate` give the
instruction's datagram: the Frame of 42_frame_decoder.md R170 or R171, or the failure of the first check that fails
(44_stream_commands.md R218, 60_exceptions.md R244). -/
def Obligations.FrameInstructionsShowTheirOutcome : Prop :=
  (∀ (rules : RuleTable) (f : FrameOperands) (s : State), ∃ t, exec (.hk f) s = .next t ∧
    ShowsOutcome rules t (decodeBytes (frameBytes 0x10 f))) ∧
  ∀ (rules : RuleTable) (f : FrameOperands) (s : State), ∃ t, exec (.pd f) s = .next t ∧
    ShowsOutcome rules t (decodeBytes (frameBytes 0x20 f))

/-- A well-formed HK is accepted from every state: RES is OK_HK and the views are its operands, the housekeeping fields read
from the payload at offsets 0, 2, 3 and 4 (42_frame_decoder.md R170, 30_encoding.md R84). -/
def Obligations.HkIsAccepted : Prop :=
  ∀ (f : FrameOperands) (s : State), (Instr.hk f).wf = true → ∃ t, exec (.hk f) s = .next t ∧
    t.phase = .idle ∧ t.rvalid = true ∧ t.res = .okHk ∧ t.fkind = 0 ∧ t.ctxOff = 0 ∧ t.ctxExp = 0 ∧ t.ctxAct = 0 ∧
    t.viewKind = some .housekeeping ∧ t.viewSatid = some f.satid ∧ t.viewTs = some f.ts ∧
    t.viewN = some (12 + f.payload.length) ∧ t.viewPayload = some f.payload ∧
    t.viewRaw = some (frameBytes 0x10 f) ∧ t.viewRawHex = some (hexLower (frameBytes 0x10 f)) ∧
    t.viewBv = some (be16At f.payload 0) ∧ t.viewBt = some (sext8 (byteAt f.payload 2)) ∧
    t.viewMsi = some (byteAt f.payload 3) ∧ t.viewSsr = some (be32At f.payload 4)

/-- A well-formed PD is accepted from every state, whatever its payload: RES is OK_PD, the views are its operands, no alert is
raised (42_frame_decoder.md R171, 43_health_evaluator.md R199). -/
def Obligations.PdIsAccepted : Prop :=
  ∀ (f : FrameOperands) (s : State), (Instr.pd f).wf = true → ∃ t, exec (.pd f) s = .next t ∧
    t.phase = .idle ∧ t.rvalid = true ∧ t.res = .okPd ∧ t.fkind = 0 ∧ t.ctxOff = 0 ∧ t.ctxExp = 0 ∧ t.ctxAct = 0 ∧
    t.viewKind = some .payloadData ∧ t.viewSatid = some f.satid ∧ t.viewTs = some f.ts ∧
    t.viewN = some (12 + f.payload.length) ∧ t.viewPayload = some f.payload ∧
    t.viewRaw = some (frameBytes 0x20 f) ∧ t.viewRawHex = some (hexLower (frameBytes 0x20 f)) ∧
    t.viewPayloadHex = some (hexLower f.payload) ∧ t.viewPayloadLength = some f.payload.length ∧
    NoHkViews t ∧ ∀ rules : RuleTable, t.viewAlerts rules = some []

/-- Where HK and PD raise a failure (42_frame_decoder.md R164, R167, R170, 60_exceptions.md R242, R243): a LEN that is not N is
LengthMismatch; with LEN right, a CHK that is not the checksum is CRCMismatch; with both right, HK with fewer than 8 payload
bytes is TruncatedPayload. -/
def Obligations.FrameInstructionsRaiseTheirFailures : Prop :=
  ∀ (f : FrameOperands) (s : State),
    (f.len.toNat ≠ 12 + f.payload.length →
      (∃ t, exec (.hk f) s = .next t ∧ ShowsFailure t ⟨.lengthMismatch, 2, f.len.setWidth 16,
        BitVec.ofNat 16 (min (12 + f.payload.length) 65535)⟩) ∧
      ∃ t, exec (.pd f) s = .next t ∧ ShowsFailure t ⟨.lengthMismatch, 2, f.len.setWidth 16,
        BitVec.ofNat 16 (min (12 + f.payload.length) 65535)⟩) ∧
    (f.len.toNat = 12 + f.payload.length → f.chk ≠ checksum (frameBody 0x10 f) →
      ∃ t, exec (.hk f) s = .next t ∧ ShowsFailure t ⟨.crcMismatch, BitVec.ofNat 16 (10 + f.payload.length),
        checksum (frameBody 0x10 f), f.chk⟩) ∧
    (f.len.toNat = 12 + f.payload.length → f.chk ≠ checksum (frameBody 0x20 f) →
      ∃ t, exec (.pd f) s = .next t ∧ ShowsFailure t ⟨.crcMismatch, BitVec.ofNat 16 (10 + f.payload.length),
        checksum (frameBody 0x20 f), f.chk⟩) ∧
    (f.len.toNat = 12 + f.payload.length → f.chk = checksum (frameBody 0x10 f) → f.payload.length < 8 →
      ∃ t, exec (.hk f) s = .next t ∧
        ShowsFailure t ⟨.truncatedPayload, 10, 8, BitVec.ofNat 16 f.payload.length⟩)

/-- The frame of HK and PD (44_stream_commands.md R212 to R214, 20_memory.md R61): the bytes stored are the datagram's own, at
offsets below N and below 255; every other byte of FB stays; COUNT, CRC, T1 and T0 hold the datagram's; the model's own
fields but `rawText` stay. -/
def Obligations.FrameInstructionsStoreTheirDatagram : Prop :=
  ∀ (f : FrameOperands) (s : State) (type : Byte) (i : Instr), (i = .hk f ∧ type = 0x10 ∨ i = .pd f ∧ type = 0x20) →
    ∃ t, exec i s = .next t ∧
      (∀ a, a < (frameBytes type f).length → a < 255 → t.fbByte a = byteAt (frameBytes type f) a) ∧
      (∀ a, (frameBytes type f).length ≤ a ∨ 255 ≤ a → t.fbByte a = s.fbByte a) ∧
      t.count.toNat = min (12 + f.payload.length) 65535 ∧ t.crc = checksum (frameBody type f) ∧
      t.t1 = hiByte f.chk ∧ t.t0 = loByte f.chk ∧
      t.fbEpoch = s.fbEpoch ∧ t.textFail = s.textFail ∧ t.port = s.port

/-- A FRAME instruction is the DGRAM of its encoding, command by command (30_encoding.md R106, R110); that it is one step of the
model is the model's choice (log 2). -/
def Obligations.FrameInstructionIsItsDgram : Prop :=
  ∀ (i : Instr) (bs : List Byte) (s : State) (d e : Byte), encode i = .datagram bs →
    runProgram (.start d :: (bs.map Instr.byte ++ [.end_ e])) s = exec i s

-- ---- Reads ----

/-- No view has a value outside its condition (10_state.md R38 to R43, 20_memory.md R62): without a Frame no Frame view and no
MemRead; the Housekeeping views only when RES is OK_HK, the PayloadData views only when it is OK_PD; the alert views only when
RVALID is 1, FIRE[i] only for `i` below NRULES, ALERT[k] only for `k` below ALERT_COUNT. That FIRE has no value while RVALID
is 0 is the model's choice between R43 and an aside of R32 (log 9). -/
def Obligations.ViewsOutsideTheirConditionAreRefused : Prop :=
  ∀ s : State,
    (s.res ≠ .okHk → s.res ≠ .okPd → NoFrameViews s) ∧ (s.res ≠ .okHk → NoHkViews s) ∧
    (s.res ≠ .okPd → NoPdViews s) ∧ (s.rvalid = false → NoAlertViews s) ∧
    ∀ rules : RuleTable, (∀ i, rules.size ≤ i → s.viewFire rules i = none) ∧
      ∀ n k, s.viewAlertCount rules = some n → n ≤ k → s.viewAlert rules k = none

/-- The host's MemRead (20_memory.md R62): inside its window it gives the bytes of FB in order, outside it is refused. -/
def Obligations.MemReadHasItsWindow : Prop :=
  ∀ (s : State) (addr n : Nat),
    ((s.res = .okHk ∨ s.res = .okPd) ∧ addr + n ≤ s.count.toNat → ∃ bs : List Byte, s.memRead addr n = some bs ∧
      bs.length = n ∧ ∀ i, i < n → byteAt bs i = s.fbByte (addr + i)) ∧
    (¬ ((s.res = .okHk ∨ s.res = .okPd) ∧ addr + n ≤ s.count.toNat) → s.memRead addr n = none)

/-- The optional output `done` (44_stream_commands.md R221) pulses at each END, in either STATE, on a command word, inside a
datagram and inside a text that TF hands on, and on nothing else; and it carries no information RVALID does not: a step on
which it pulses leaves no datagram open and leaves RVALID 1, but for an END out of place, which leaves RVALID as it was; and
RVALID goes from 0 to 1 on no other step. That a datagram or a text is one input and one step, with one pulse, is the model's
choice (logs 1, 2, 12). -/
def Obligations.DoneTellsWhatRvalidTells : Prop :=
  (∀ s : State, s.port = [] → s.donePulse = false) ∧
  (∀ (s : State) (x : PortItem) (rest : List PortItem), s.port = x :: rest →
    (s.donePulse = true ↔ (∃ w d, x = .word w ∧ decodeWord w = .end_ d) ∨ (∃ bs, x = .datagram bs) ∨
      ∃ txt u bs, x = .text txt ∧ textToBytes txt = .bytes u bs)) ∧
  ∀ s t : State, step s = .next t →
    (s.donePulse = true → t.phase = .idle ∧ (t.rvalid = true ∨
      ∃ w d rest, s.port = .word w :: rest ∧ decodeWord w = .end_ d ∧ s.phase = .idle ∧ t.rvalid = s.rvalid)) ∧
    (s.rvalid = false → t.rvalid = true → s.donePulse = true)

-- ---- The step ----

/-- When the oldest input decodes to an instruction, the step is that instruction's meaning at the state with the input off
the port (44_stream_commands.md R210, 30_encoding.md R90). The rules say it of command words, one step each; that inputs wait
on `port`, and that a whole datagram is one input and one step, is the model's choice (logs 1 and 2). -/
def Obligations.StepRunsTheDecodedInstruction : Prop :=
  ∀ (s : State) (x : PortItem) (rest : List PortItem) (i : Instr),
    s.port = x :: rest → decodeItem x = .instr i → step s = exec i { s with port := rest }

/-- Every datagram, an instruction of the table or not, is taken in one step, which answers the same state as START, a BYTE for
each byte and END run one after the other, and shows the outcome of `decode_bytes` (42_frame_decoder.md R160: total, none makes
it crash; 30_encoding.md R106; one step a datagram, off the port, is the model's choice, logs 1 and 2). -/
def Obligations.EveryDatagramIsTaken : Prop :=
  ∀ (rules : RuleTable) (s : State) (bs : List Byte) (rest : List PortItem), s.port = .datagram bs :: rest →
    ∃ t, step s = .next t ∧ t.port = rest ∧ ShowsOutcome rules t (decodeBytes bs) ∧
      ∀ d e : Byte, runProgram (.start d :: (bs.map Instr.byte ++ [.end_ e])) { s with port := rest } = .next t

/-- A text at the text front end (41_text_front_end.md R150, 30_encoding.md R107, 10_state.md R40; the fields `textFail` and
`rawText` and taking a text in one step are the model's choice, logs 2 and 6): one that TF rejects leaves the byte side
untouched and is reported; any other is the DGRAM of its bytes, and `raw_hex` is the normalised text. -/
def Obligations.TextEntryIsTheDgramOfItsBytes : Prop :=
  ∀ (s : State) (txt : Text) (rest : List PortItem), s.port = .text txt :: rest →
    (∀ x, textToBytes txt = .failed x →
      step s = .next { s with port := rest, textFail := some x } ∧ decodeText txt = .failed x) ∧
    ∀ (u : Text) (bs : List Byte), textToBytes txt = .bytes u bs →
      ∃ t r, step s = .next t ∧
        runProgram (.start 0 :: (bs.map Instr.byte ++ [.end_ 0])) { s with port := rest } = .next r ∧
        t = { r with rawText := some u, textFail := none } ∧ u = normalise txt ∧
        ∀ f, decodeText txt = .frame f → t.viewFrame = some f

/-- The RESET event, from any state (10_state.md R45, 44_stream_commands.md R215, 70_reset_and_hazards.md R281): every register takes
its reset value, FB is unspecified (nothing is listed), no view has a value, and with nothing presented nothing runs. The
model's choices in it: the inputs behind the RESET stay on the port (log 1), a step with nothing presented answers the same
state (log 3), nothing is listed in FB (log 4), and FIRE has no value, R43 and R45 over an aside of R32 (log 9). -/
def Obligations.ResetEventGivesTheResetTable : Prop :=
  ∀ (s : State) (rest : List PortItem), s.port = .rst :: rest → ∃ t, step s = .next t ∧
    t.phase = .idle ∧ t.count = 0 ∧ t.crc = 0x0000 ∧ t.t1 = 0x00 ∧ t.t0 = 0x00 ∧ t.fb = [] ∧ t.rvalid = false ∧
    t.res = .none ∧ t.fkind = 0 ∧ t.ctxOff = 0 ∧ t.ctxExp = 0 ∧ t.ctxAct = 0 ∧ t.perr = false ∧ t.port = rest ∧
    NoFrameViews t ∧ NoHkViews t ∧ NoPdViews t ∧ NoAlertViews t ∧ (rest = [] → step t = .next t)

/-- Liveness (70_reset_and_hazards.md R297): `in_ready` is always 1, no step of the machine stops, and a DGRAM of `n` bytes, one
command word a command, is finished after exactly `n + 2` taken commands, not before: STATE is RECV after any smaller
positive number of them. -/
def Obligations.DgramFinishesAfterItsCommands : Prop :=
  (∀ s : State, s.inReady = true ∧ ∃ t, step s = .next t) ∧
  ∀ (s : State) (bs : List Byte) (d e : Byte) (rest : List PortItem),
    s.port = (Instr.start d :: (bs.map Instr.byte ++ [.end_ e])).map encode ++ rest →
    (∃ t, Host.Core.run core (bs.length + 2) s = .next t ∧ t.port = rest ∧ complete t ∧ t.rvalid = true) ∧
    ∀ k, 1 ≤ k → k ≤ bs.length + 1 → ∃ t, Host.Core.run core k s = .next t ∧ ¬ complete t ∧ t.rvalid = false

-- ---- Invariants ----

/-- The invariant of the machine is kept by every step from every state that has it, whatever the host presents (10_state.md R25 to
R28, R44, 44_stream_commands.md R216, R218): FB keeps its canonical form, and the registers and FB are at every moment what one
datagram leaves, with no outcome while it is open and with the outcome of `decode_bytes` once it has ended. -/
def Obligations.StepKeepsTheInvariant : Prop :=
  ∀ s t : State, Inv s → step s = .next t → Inv t

/-- Every instruction keeps the invariant (the same, for `exec`). -/
def Obligations.InstructionsKeepTheInvariant : Prop :=
  ∀ (i : Instr) (s t : State), Inv s → exec i s = .next t → Inv t

/-- The invariant holds after reset (10_state.md R45). -/
def Obligations.ResetHasTheInvariant : Prop :=
  Inv State.reset

/-- What the invariant says to a host (10_state.md R26, R38; 42_frame_decoder.md R174): RVALID is 1 exactly when RES is not NONE,
FKIND is 0 unless RES is FAIL, and the bytes RAW of a Frame that shows pass every check of `decode_bytes`: there are no
partially valid Frames. -/
def Obligations.AShownFrameIsValid : Prop :=
  ∀ s : State, Inv s →
    (s.rvalid = true ↔ s.res ≠ .none) ∧ (s.res ≠ .fail → s.fkind = 0 ∧ s.ctxOff = 0 ∧ s.ctxExp = 0 ∧ s.ctxAct = 0) ∧
    ∀ f, s.viewFrame = some f → decodeBytes f.raw = .frame { f with rawHex := hexLower f.raw }

-- ---- The byte port ----

/-- The byte port (30_encoding.md R90): the command words of each input; `in_valid` is 1 exactly while the oldest input is a command
word, a datagram or a text that TF hands on, and `rst` exactly while it is a RESET; `in_ready` is always 1, so a transfer
happens exactly when `in_valid` is 1; on a transfer the step is the presented command words taken one after the other
(but for the model's own fields of a text, log 6); with no transfer no command is taken: the step is RESET's, or leaves every
register and FB as they are. That inputs wait on `port`, that a RESET or a failing text stands in front of what is behind it,
and that a datagram or a text is one step, is the model's choice (logs 1 and 2). -/
def Obligations.TransfersTakeThePresentedCommands : Prop :=
  (∀ w, wordsOf (.word w) = [w]) ∧ wordsOf .rst = [] ∧
  (∀ bs : List Byte, (wordsOf (.datagram bs)).map decodeWord = .start 0 :: (bs.map Instr.byte ++ [.end_ 0])) ∧
  (∀ txt x, textToBytes txt = .failed x → wordsOf (.text txt) = []) ∧
  (∀ txt u bs, textToBytes txt = .bytes u bs → wordsOf (.text txt) = wordsOf (.datagram bs)) ∧
  ∀ s : State,
    (s.inValid = true ↔ (∃ w rest, s.port = .word w :: rest) ∨ (∃ bs rest, s.port = .datagram bs :: rest) ∨
      ∃ txt u bs rest, s.port = .text txt :: rest ∧ textToBytes txt = .bytes u bs) ∧
    (s.rstInput = true ↔ ∃ rest, s.port = .rst :: rest) ∧
    (s.transfer = true ↔ s.inValid = true) ∧ (s.inWord = none ↔ s.inValid = false) ∧
    (s.transfer = true → ∃ x rest r t, s.port = x :: rest ∧ s.inWord = (wordsOf x).head? ∧
      runProgram ((wordsOf x).map decodeWord) { s with port := rest } = .next r ∧ step s = .next t ∧
      t = { r with rawText := t.rawText, textFail := t.textFail }) ∧
    (s.transfer = false → s.rstInput = true → step s = .next { s.resetEvent with port := s.port.tail }) ∧
    (s.transfer = false → s.rstInput = false → ∃ t, step s = .next t ∧
      t = { s with port := s.port.tail, textFail := t.textFail })
end

