-- ==== Sys2Proof/Laws/Bytes.lean ====
section
/-! SUPPORT. The laws of byte order and of the wire format's offsets. -/

namespace Sys2Proof.Laws

open Sys2Proof.Machine

theorem be16_toNat (a b : Byte) : (be16 a b).toNat = a.toNat * 256 + b.toNat := by
  have : (be16 a b).toNat = a.toNat <<< 8 ||| b.toNat := by simp only [be16, BitVec.toNat_append]
  rw [this, ← Nat.shiftLeft_add_eq_or_of_lt b.isLt, Nat.shiftLeft_eq]

theorem be32_toNat (a b c d : Byte) : (be32 a b c d).toNat = (be16 a b).toNat * 65536 + (be16 c d).toNat := by
  have : (be32 a b c d).toNat = (be16 a b).toNat <<< 16 ||| (be16 c d).toNat := by simp only [be32, BitVec.toNat_append]
  rw [this, ← Nat.shiftLeft_add_eq_or_of_lt (be16 c d).isLt, Nat.shiftLeft_eq]

theorem hiByte_toNat (v : BitVec 16) : (hiByte v).toNat = v.toNat / 256 := by
  have := v.isLt
  simp only [hiByte, BitVec.extractLsb'_toNat, Nat.shiftRight_eq_div_pow]
  omega

theorem loByte_toNat (v : BitVec 16) : (loByte v).toNat = v.toNat % 256 := by
  simp only [loByte, BitVec.extractLsb'_toNat, Nat.shiftRight_zero]

@[simp] theorem hiByte_be16 (a b : Byte) : hiByte (be16 a b) = a := by
  apply BitVec.eq_of_toNat_eq
  have := a.isLt; have := b.isLt
  rw [hiByte_toNat, be16_toNat]; omega

@[simp] theorem loByte_be16 (a b : Byte) : loByte (be16 a b) = b := by
  apply BitVec.eq_of_toNat_eq
  have := a.isLt; have := b.isLt
  rw [loByte_toNat, be16_toNat]; omega

@[simp] theorem be16_hiByte_loByte (v : BitVec 16) : be16 (hiByte v) (loByte v) = v := by
  apply BitVec.eq_of_toNat_eq
  rw [be16_toNat, hiByte_toNat, loByte_toNat]; omega

@[simp] theorem be32_halves (v : BitVec 32) :
    be32 (hiByte (v.extractLsb' 16 16)) (loByte (v.extractLsb' 16 16)) (hiByte (v.extractLsb' 0 16))
      (loByte (v.extractLsb' 0 16)) = v := by
  apply BitVec.eq_of_toNat_eq
  have := v.isLt
  rw [be32_toNat, be16_hiByte_loByte, be16_hiByte_loByte]
  simp only [BitVec.extractLsb'_toNat, Nat.shiftRight_eq_div_pow]
  omega

@[simp] theorem be32_high (a b c d : Byte) : (be32 a b c d).extractLsb' 16 16 = be16 a b := by
  apply BitVec.eq_of_toNat_eq
  have := (be16 a b).isLt; have := (be16 c d).isLt
  simp only [BitVec.extractLsb'_toNat, Nat.shiftRight_eq_div_pow, be32_toNat]
  omega

@[simp] theorem be32_low (a b c d : Byte) : (be32 a b c d).extractLsb' 0 16 = be16 c d := by
  apply BitVec.eq_of_toNat_eq
  have := (be16 a b).isLt; have := (be16 c d).isLt
  simp only [BitVec.extractLsb'_toNat, Nat.shiftRight_zero, be32_toNat]
  omega

@[simp] theorem be16Bytes_be16 (a b : Byte) : be16Bytes (be16 a b) = [a, b] := by simp [be16Bytes]

@[simp] theorem be32Bytes_be32 (a b c d : Byte) : be32Bytes (be32 a b c d) = [a, b, c, d] := by simp [be32Bytes]

theorem byteAt_eq_getElem (bs : List Byte) (i : Nat) (h : i < bs.length) : byteAt bs i = bs[i] :=
  List.getD_eq_getElem _ _ h

@[simp] theorem byteAt_zero_cons (b : Byte) (bs : List Byte) : byteAt (b :: bs) 0 = b := rfl

@[simp] theorem byteAt_succ_cons (b : Byte) (bs : List Byte) (i : Nat) : byteAt (b :: bs) (i + 1) = byteAt bs i := rfl

theorem byteAt_append_left (xs ys : List Byte) (i : Nat) (h : i < xs.length) : byteAt (xs ++ ys) i = byteAt xs i := by
  rw [byteAt_eq_getElem _ _ (by simp; omega), byteAt_eq_getElem _ _ h, List.getElem_append_left h]

theorem byteAt_append_right (xs ys : List Byte) (i : Nat) : byteAt (xs ++ ys) (xs.length + i) = byteAt ys i := by
  simp [byteAt, List.getD_eq_getElem?_getD, List.getElem?_append_right]

/-- The length of a frame's body, and of the frame: `N = 12 + PLEN` (30_encoding.md R80). -/
@[simp] theorem frameBody_length (type : Byte) (f : FrameOperands) : (frameBody type f).length = 10 + f.payload.length := by
  simp [frameBody, be16Bytes, be32Bytes]; omega

@[simp] theorem frameBytes_length (type : Byte) (f : FrameOperands) : (frameBytes type f).length = 12 + f.payload.length := by
  simp [frameBytes, be16Bytes]; omega

/-- A frame's body as a list of its header bytes and its payload (30_encoding.md R81). -/
theorem frameBody_eq (type : Byte) (f : FrameOperands) :
    frameBody type f = 0x1A :: 0xCF :: f.len :: type :: hiByte f.satid :: loByte f.satid ::
      hiByte (f.ts.extractLsb' 16 16) :: loByte (f.ts.extractLsb' 16 16) :: hiByte (f.ts.extractLsb' 0 16) ::
      loByte (f.ts.extractLsb' 0 16) :: f.payload := by
  simp [frameBody, be16Bytes, be32Bytes, Config.syncConst]
  decide

/-- The fields of a frame stand at the offsets of 30_encoding.md R81. -/
theorem frameBytes_fields (type : Byte) (f : FrameOperands) :
    be16At (frameBytes type f) 0 = Config.syncConst ∧ byteAt (frameBytes type f) 2 = f.len ∧
    byteAt (frameBytes type f) 3 = type ∧ be16At (frameBytes type f) 4 = f.satid ∧
    be32At (frameBytes type f) 6 = f.ts := by
  simp [frameBytes, frameBody_eq, be16At, be32At]
  decide

theorem frameBytes_chk (type : Byte) (f : FrameOperands) :
    be16At (frameBytes type f) ((frameBytes type f).length - 2) = f.chk := by
  have hl : (frameBytes type f).length - 2 = (frameBody type f).length := by simp; omega
  have h0 := byteAt_append_right (frameBody type f) (be16Bytes f.chk) 0
  have h1 := byteAt_append_right (frameBody type f) (be16Bytes f.chk) 1
  rw [hl, be16At, frameBytes]
  rw [Nat.add_zero] at h0
  rw [h0, h1]
  simp [be16Bytes]

theorem frameBytes_take (type : Byte) (f : FrameOperands) :
    (frameBytes type f).take ((frameBytes type f).length - 2) = frameBody type f := by
  have hl : (frameBytes type f).length - 2 = (frameBody type f).length := by simp; omega
  rw [hl, frameBytes, List.take_left']
  rfl

theorem frameBytes_payload (type : Byte) (f : FrameOperands) :
    slice (frameBytes type f) 10 ((frameBytes type f).length - 2) = f.payload := by
  rw [slice, frameBytes_take, frameBody_eq]
  rfl

/-- What `encode_frame` builds (30_encoding.md R110): LEN is the byte count, CHK the checksum of the body. -/
theorem validOperands_spec (type : Byte) (satid : BitVec 16) (ts : BitVec 32) (p : List Byte) (hp : p.length ≤ 243) :
    (validOperands type satid ts p).len.toNat = 12 + p.length ∧
    (validOperands type satid ts p).chk = checksum (frameBody type (validOperands type satid ts p)) ∧
    (validOperands type satid ts p).satid = satid ∧ (validOperands type satid ts p).ts = ts ∧
    (validOperands type satid ts p).payload = p := by
  refine ⟨?_, by simp only [validOperands, frameBody], by simp only [validOperands], by simp only [validOperands],
    by simp only [validOperands]⟩
  simp only [validOperands, BitVec.toNat_ofNat]
  omega

end Sys2Proof.Laws
end

