-- ==== Sys2Proof/Laws/Checksum.lean ====
section
/-! SUPPORT. The laws of one bit step and one byte step of the CRC: linear, and injective in the register and in the byte. -/

namespace Sys2Proof.Laws

open Sys2Proof.Machine

theorem crcStepBit_xor (a b : BitVec 16) : crcStepBit (a ^^^ b) = crcStepBit a ^^^ crcStepBit b := by
  have hs : (a ^^^ b) <<< 1 = a <<< 1 ^^^ b <<< 1 := BitVec.shiftLeft_xor_distrib a b 1
  simp only [crcStepBit, BitVec.msb_xor, hs]
  generalize a <<< 1 = u
  generalize b <<< 1 = v
  have cancel : u ^^^ v = (u ^^^ Config.poly) ^^^ (v ^^^ Config.poly) := by
    have : (u ^^^ Config.poly) ^^^ (v ^^^ Config.poly) = (u ^^^ v) ^^^ (Config.poly ^^^ Config.poly) := by ac_rfl
    rw [this, BitVec.xor_self, BitVec.xor_zero]
  cases a.msb <;> cases b.msb
  · rfl
  · exact BitVec.xor_assoc u v Config.poly
  · show (u ^^^ v) ^^^ Config.poly = (u ^^^ Config.poly) ^^^ v
    ac_rfl
  · exact cancel

@[simp] theorem crcSteps_zero (n : Nat) : crcSteps n 0 = 0 := by
  induction n with
  | zero => rfl
  | succ n ih => simpa [crcSteps, crcStepBit] using ih

theorem crcSteps_xor (n : Nat) (a b : BitVec 16) : crcSteps n (a ^^^ b) = crcSteps n a ^^^ crcSteps n b := by
  induction n generalizing a b with
  | zero => rfl
  | succ n ih => simp only [crcSteps, crcStepBit_xor, ih]

/-- A bit step loses nothing: only 0 goes to 0. -/
theorem crcStepBit_eq_zero (r : BitVec 16) (h : crcStepBit r = 0) : r = 0 := by
  have hlow : (r <<< 1).getLsbD 0 = false := by simp
  unfold crcStepBit at h
  split at h
  · have : ((r <<< 1) ^^^ Config.poly).getLsbD 0 = true := by
      rw [BitVec.getLsbD_xor, hlow]; rfl
    rw [h] at this
    exact absurd this (by decide)
  · rename_i hm
    have h1 : (r <<< 1).toNat = 0 := by rw [h]; rfl
    have h2 : r.toNat < 2 ^ 15 := by
      have := BitVec.msb_eq_decide r
      simp only [this, decide_eq_true_eq, not_le] at hm
      simpa using hm
    apply BitVec.eq_of_toNat_eq
    rw [BitVec.toNat_shiftLeft, Nat.shiftLeft_eq] at h1
    show r.toNat = 0
    omega

theorem crcSteps_eq_zero (n : Nat) (r : BitVec 16) (h : crcSteps n r = 0) : r = 0 := by
  induction n generalizing r with
  | zero => exact h
  | succ n ih => exact crcStepBit_eq_zero r (ih _ h)

theorem crcSteps_injective (n : Nat) (a b : BitVec 16) (h : crcSteps n a = crcSteps n b) : a = b := by
  have : crcSteps n (a ^^^ b) = 0 := by rw [crcSteps_xor, h]; simp
  have := crcSteps_eq_zero n _ this
  exact BitVec.xor_eq_zero_iff.mp this

/-- The byte meets the high byte of the register; the low byte does not change (40_checksum_codec.md R122). -/
theorem crcXorHigh_eq (r : BitVec 16) (b : Byte) : crcXorHigh r b = be16 (hiByte r ^^^ b) (loByte r) := by
  apply BitVec.eq_of_getLsbD_eq
  intro i hi
  simp only [crcXorHigh, be16, hiByte, loByte, BitVec.getLsbD_xor, BitVec.getLsbD_shiftLeft, BitVec.getLsbD_setWidth,
    BitVec.getLsbD_append, BitVec.getLsbD_extractLsb']
  by_cases h : i < 8
  · simp [h]
  · have : 8 + (i - 8) = i := by omega
    have h2 : i - 8 < 16 := by omega
    have h3 : i - 8 < 8 := by omega
    simp [h, this, h2, h3, hi]

theorem crcXorHigh_injective_byte (r : BitVec 16) (a b : Byte) (h : crcXorHigh r a = crcXorHigh r b) : a = b := by
  have : hiByte r ^^^ a = hiByte r ^^^ b := by
    have := congrArg hiByte h
    simpa [crcXorHigh_eq] using this
  exact BitVec.xor_right_inj _ |>.mp this

theorem crcUpdateByte_injective_byte (r : BitVec 16) (a b : Byte) (h : crcUpdateByte r a = crcUpdateByte r b) : a = b :=
  crcXorHigh_injective_byte r a b (crcSteps_injective 8 _ _ h)

theorem crcUpdateByte_injective_register (p q : BitVec 16) (b : Byte) (h : crcUpdateByte p b = crcUpdateByte q b) : p = q := by
  have := crcSteps_injective 8 _ _ h
  simp only [crcXorHigh] at this
  exact BitVec.xor_left_inj _ |>.mp this

theorem crcUpdateByte_xor (p q : BitVec 16) (a b : Byte) :
    crcUpdateByte (p ^^^ q) (a ^^^ b) = crcUpdateByte p a ^^^ crcUpdateByte q b := by
  rw [crcUpdateByte, crcUpdateByte, crcUpdateByte, ← crcSteps_xor]
  congr 1
  simp only [crcXorHigh, BitVec.setWidth_xor, BitVec.shiftLeft_xor_distrib]
  ac_rfl

@[simp] theorem crcUpdate_nil (r : BitVec 16) : crcUpdate r [] = r := rfl

@[simp] theorem crcUpdate_cons (r : BitVec 16) (b : Byte) (bs : List Byte) :
    crcUpdate r (b :: bs) = crcUpdate (crcUpdateByte r b) bs := rfl

/-- One more byte at the end of the sequence. -/
theorem crcUpdate_concat (r : BitVec 16) (bs : List Byte) (b : Byte) :
    crcUpdate r (bs ++ [b]) = crcUpdateByte (crcUpdate r bs) b := by
  induction bs generalizing r with
  | nil => rfl
  | cons x xs ih => simpa using ih _

theorem checksum_concat (bs : List Byte) (b : Byte) : checksum (bs ++ [b]) = crcUpdateByte (checksum bs) b :=
  crcUpdate_concat _ _ _

end Sys2Proof.Laws
end

