-- ==== Sys2Proof/Laws/State.lean ====
section
/-! SUPPORT. One lemma per field per named update of the state, so that no later proof unfolds a record update. -/

namespace Sys2Proof.Laws

open Sys2Proof.Machine

-- START's register writes.
@[simp] theorem openDatagram_phase (s : State) : (s.openDatagram).phase = .recv := rfl
@[simp] theorem openDatagram_count (s : State) : (s.openDatagram).count = 0 := rfl
@[simp] theorem openDatagram_crc (s : State) : (s.openDatagram).crc = Config.crcInit := rfl
@[simp] theorem openDatagram_t1 (s : State) : (s.openDatagram).t1 = 0 := rfl
@[simp] theorem openDatagram_t0 (s : State) : (s.openDatagram).t0 = 0 := rfl
@[simp] theorem openDatagram_fb (s : State) : (s.openDatagram).fb = s.fb := rfl
@[simp] theorem openDatagram_rvalid (s : State) : (s.openDatagram).rvalid = false := rfl
@[simp] theorem openDatagram_res (s : State) : (s.openDatagram).res = .none := rfl
@[simp] theorem openDatagram_fkind (s : State) : (s.openDatagram).fkind = 0 := rfl
@[simp] theorem openDatagram_ctxOff (s : State) : (s.openDatagram).ctxOff = 0 := rfl
@[simp] theorem openDatagram_ctxExp (s : State) : (s.openDatagram).ctxExp = 0 := rfl
@[simp] theorem openDatagram_ctxAct (s : State) : (s.openDatagram).ctxAct = 0 := rfl
@[simp] theorem openDatagram_perr (s : State) : (s.openDatagram).perr = s.perr := rfl
@[simp] theorem openDatagram_fbEpoch (s : State) : (s.openDatagram).fbEpoch = s.fbEpoch := rfl
@[simp] theorem openDatagram_rawText (s : State) : (s.openDatagram).rawText = none := rfl
@[simp] theorem openDatagram_textFail (s : State) : (s.openDatagram).textFail = s.textFail := rfl
@[simp] theorem openDatagram_port (s : State) : (s.openDatagram).port = s.port := rfl

-- BYTE's register writes.
@[simp] theorem receiveByte_phase (s : State) (b : Byte) : (s.receiveByte b).phase = s.phase := rfl
@[simp] theorem receiveByte_count (s : State) (b : Byte) : (s.receiveByte b).count = satInc s.count := rfl
@[simp] theorem receiveByte_crc (s : State) (b : Byte) : (s.receiveByte b).crc = (if 2 ≤ s.count.toNat then crcUpdateByte s.crc s.t1 else s.crc) := rfl
@[simp] theorem receiveByte_t1 (s : State) (b : Byte) : (s.receiveByte b).t1 = s.t0 := rfl
@[simp] theorem receiveByte_t0 (s : State) (b : Byte) : (s.receiveByte b).t0 = b := rfl
@[simp] theorem receiveByte_fb (s : State) (b : Byte) : (s.receiveByte b).fb = s.storeByte b := rfl
@[simp] theorem receiveByte_rvalid (s : State) (b : Byte) : (s.receiveByte b).rvalid = s.rvalid := rfl
@[simp] theorem receiveByte_res (s : State) (b : Byte) : (s.receiveByte b).res = s.res := rfl
@[simp] theorem receiveByte_fkind (s : State) (b : Byte) : (s.receiveByte b).fkind = s.fkind := rfl
@[simp] theorem receiveByte_ctxOff (s : State) (b : Byte) : (s.receiveByte b).ctxOff = s.ctxOff := rfl
@[simp] theorem receiveByte_ctxExp (s : State) (b : Byte) : (s.receiveByte b).ctxExp = s.ctxExp := rfl
@[simp] theorem receiveByte_ctxAct (s : State) (b : Byte) : (s.receiveByte b).ctxAct = s.ctxAct := rfl
@[simp] theorem receiveByte_perr (s : State) (b : Byte) : (s.receiveByte b).perr = s.perr := rfl
@[simp] theorem receiveByte_fbEpoch (s : State) (b : Byte) : (s.receiveByte b).fbEpoch = s.fbEpoch := rfl
@[simp] theorem receiveByte_rawText (s : State) (b : Byte) : (s.receiveByte b).rawText = s.rawText := rfl
@[simp] theorem receiveByte_textFail (s : State) (b : Byte) : (s.receiveByte b).textFail = s.textFail := rfl
@[simp] theorem receiveByte_port (s : State) (b : Byte) : (s.receiveByte b).port = s.port := rfl

-- Taking a failure.
@[simp] theorem takeFailure_phase (s : State) (x : Failure) : (s.takeFailure x).phase = .idle := rfl
@[simp] theorem takeFailure_count (s : State) (x : Failure) : (s.takeFailure x).count = s.count := rfl
@[simp] theorem takeFailure_crc (s : State) (x : Failure) : (s.takeFailure x).crc = s.crc := rfl
@[simp] theorem takeFailure_t1 (s : State) (x : Failure) : (s.takeFailure x).t1 = s.t1 := rfl
@[simp] theorem takeFailure_t0 (s : State) (x : Failure) : (s.takeFailure x).t0 = s.t0 := rfl
@[simp] theorem takeFailure_fb (s : State) (x : Failure) : (s.takeFailure x).fb = s.fb := rfl
@[simp] theorem takeFailure_rvalid (s : State) (x : Failure) : (s.takeFailure x).rvalid = true := rfl
@[simp] theorem takeFailure_res (s : State) (x : Failure) : (s.takeFailure x).res = .fail := rfl
@[simp] theorem takeFailure_fkind (s : State) (x : Failure) : (s.takeFailure x).fkind = kindCode x.kind := rfl
@[simp] theorem takeFailure_ctxOff (s : State) (x : Failure) : (s.takeFailure x).ctxOff = x.off := rfl
@[simp] theorem takeFailure_ctxExp (s : State) (x : Failure) : (s.takeFailure x).ctxExp = x.exp := rfl
@[simp] theorem takeFailure_ctxAct (s : State) (x : Failure) : (s.takeFailure x).ctxAct = x.act := rfl
@[simp] theorem takeFailure_perr (s : State) (x : Failure) : (s.takeFailure x).perr = s.perr := rfl
@[simp] theorem takeFailure_fbEpoch (s : State) (x : Failure) : (s.takeFailure x).fbEpoch = s.fbEpoch := rfl
@[simp] theorem takeFailure_rawText (s : State) (x : Failure) : (s.takeFailure x).rawText = s.rawText := rfl
@[simp] theorem takeFailure_textFail (s : State) (x : Failure) : (s.takeFailure x).textFail = s.textFail := rfl
@[simp] theorem takeFailure_port (s : State) (x : Failure) : (s.takeFailure x).port = s.port := rfl

-- A Frame exists.
@[simp] theorem acceptFrame_phase (s : State) (r : Res) : (s.acceptFrame r).phase = .idle := rfl
@[simp] theorem acceptFrame_count (s : State) (r : Res) : (s.acceptFrame r).count = s.count := rfl
@[simp] theorem acceptFrame_crc (s : State) (r : Res) : (s.acceptFrame r).crc = s.crc := rfl
@[simp] theorem acceptFrame_t1 (s : State) (r : Res) : (s.acceptFrame r).t1 = s.t1 := rfl
@[simp] theorem acceptFrame_t0 (s : State) (r : Res) : (s.acceptFrame r).t0 = s.t0 := rfl
@[simp] theorem acceptFrame_fb (s : State) (r : Res) : (s.acceptFrame r).fb = s.fb := rfl
@[simp] theorem acceptFrame_rvalid (s : State) (r : Res) : (s.acceptFrame r).rvalid = true := rfl
@[simp] theorem acceptFrame_res (s : State) (r : Res) : (s.acceptFrame r).res = r := rfl
@[simp] theorem acceptFrame_fkind (s : State) (r : Res) : (s.acceptFrame r).fkind = 0 := rfl
@[simp] theorem acceptFrame_ctxOff (s : State) (r : Res) : (s.acceptFrame r).ctxOff = 0 := rfl
@[simp] theorem acceptFrame_ctxExp (s : State) (r : Res) : (s.acceptFrame r).ctxExp = 0 := rfl
@[simp] theorem acceptFrame_ctxAct (s : State) (r : Res) : (s.acceptFrame r).ctxAct = 0 := rfl
@[simp] theorem acceptFrame_perr (s : State) (r : Res) : (s.acceptFrame r).perr = s.perr := rfl
@[simp] theorem acceptFrame_fbEpoch (s : State) (r : Res) : (s.acceptFrame r).fbEpoch = s.fbEpoch := rfl
@[simp] theorem acceptFrame_rawText (s : State) (r : Res) : (s.acceptFrame r).rawText = s.rawText := rfl
@[simp] theorem acceptFrame_textFail (s : State) (r : Res) : (s.acceptFrame r).textFail = s.textFail := rfl
@[simp] theorem acceptFrame_port (s : State) (r : Res) : (s.acceptFrame r).port = s.port := rfl

-- PERR.
@[simp] theorem flagMisuse_phase (s : State) : (s.flagMisuse).phase = s.phase := rfl
@[simp] theorem flagMisuse_count (s : State) : (s.flagMisuse).count = s.count := rfl
@[simp] theorem flagMisuse_crc (s : State) : (s.flagMisuse).crc = s.crc := rfl
@[simp] theorem flagMisuse_t1 (s : State) : (s.flagMisuse).t1 = s.t1 := rfl
@[simp] theorem flagMisuse_t0 (s : State) : (s.flagMisuse).t0 = s.t0 := rfl
@[simp] theorem flagMisuse_fb (s : State) : (s.flagMisuse).fb = s.fb := rfl
@[simp] theorem flagMisuse_rvalid (s : State) : (s.flagMisuse).rvalid = s.rvalid := rfl
@[simp] theorem flagMisuse_res (s : State) : (s.flagMisuse).res = s.res := rfl
@[simp] theorem flagMisuse_fkind (s : State) : (s.flagMisuse).fkind = s.fkind := rfl
@[simp] theorem flagMisuse_ctxOff (s : State) : (s.flagMisuse).ctxOff = s.ctxOff := rfl
@[simp] theorem flagMisuse_ctxExp (s : State) : (s.flagMisuse).ctxExp = s.ctxExp := rfl
@[simp] theorem flagMisuse_ctxAct (s : State) : (s.flagMisuse).ctxAct = s.ctxAct := rfl
@[simp] theorem flagMisuse_perr (s : State) : (s.flagMisuse).perr = true := rfl
@[simp] theorem flagMisuse_fbEpoch (s : State) : (s.flagMisuse).fbEpoch = s.fbEpoch := rfl
@[simp] theorem flagMisuse_rawText (s : State) : (s.flagMisuse).rawText = s.rawText := rfl
@[simp] theorem flagMisuse_textFail (s : State) : (s.flagMisuse).textFail = s.textFail := rfl
@[simp] theorem flagMisuse_port (s : State) : (s.flagMisuse).port = s.port := rfl

-- RESET.
@[simp] theorem resetEvent_phase (s : State) : (s.resetEvent).phase = .idle := rfl
@[simp] theorem resetEvent_count (s : State) : (s.resetEvent).count = 0 := rfl
@[simp] theorem resetEvent_crc (s : State) : (s.resetEvent).crc = 0 := rfl
@[simp] theorem resetEvent_t1 (s : State) : (s.resetEvent).t1 = 0 := rfl
@[simp] theorem resetEvent_t0 (s : State) : (s.resetEvent).t0 = 0 := rfl
@[simp] theorem resetEvent_fb (s : State) : (s.resetEvent).fb = [] := rfl
@[simp] theorem resetEvent_rvalid (s : State) : (s.resetEvent).rvalid = false := rfl
@[simp] theorem resetEvent_res (s : State) : (s.resetEvent).res = .none := rfl
@[simp] theorem resetEvent_fkind (s : State) : (s.resetEvent).fkind = 0 := rfl
@[simp] theorem resetEvent_ctxOff (s : State) : (s.resetEvent).ctxOff = 0 := rfl
@[simp] theorem resetEvent_ctxExp (s : State) : (s.resetEvent).ctxExp = 0 := rfl
@[simp] theorem resetEvent_ctxAct (s : State) : (s.resetEvent).ctxAct = 0 := rfl
@[simp] theorem resetEvent_perr (s : State) : (s.resetEvent).perr = false := rfl
@[simp] theorem resetEvent_fbEpoch (s : State) : (s.resetEvent).fbEpoch = s.fbEpoch + 1 := rfl
@[simp] theorem resetEvent_rawText (s : State) : (s.resetEvent).rawText = none := rfl
@[simp] theorem resetEvent_textFail (s : State) : (s.resetEvent).textFail = none := rfl
@[simp] theorem resetEvent_port (s : State) : (s.resetEvent).port = s.port := rfl

-- The port.
@[simp] theorem withPort_phase (s : State) (p : List PortItem) : (s.withPort p).phase = s.phase := rfl
@[simp] theorem withPort_count (s : State) (p : List PortItem) : (s.withPort p).count = s.count := rfl
@[simp] theorem withPort_crc (s : State) (p : List PortItem) : (s.withPort p).crc = s.crc := rfl
@[simp] theorem withPort_t1 (s : State) (p : List PortItem) : (s.withPort p).t1 = s.t1 := rfl
@[simp] theorem withPort_t0 (s : State) (p : List PortItem) : (s.withPort p).t0 = s.t0 := rfl
@[simp] theorem withPort_fb (s : State) (p : List PortItem) : (s.withPort p).fb = s.fb := rfl
@[simp] theorem withPort_rvalid (s : State) (p : List PortItem) : (s.withPort p).rvalid = s.rvalid := rfl
@[simp] theorem withPort_res (s : State) (p : List PortItem) : (s.withPort p).res = s.res := rfl
@[simp] theorem withPort_fkind (s : State) (p : List PortItem) : (s.withPort p).fkind = s.fkind := rfl
@[simp] theorem withPort_ctxOff (s : State) (p : List PortItem) : (s.withPort p).ctxOff = s.ctxOff := rfl
@[simp] theorem withPort_ctxExp (s : State) (p : List PortItem) : (s.withPort p).ctxExp = s.ctxExp := rfl
@[simp] theorem withPort_ctxAct (s : State) (p : List PortItem) : (s.withPort p).ctxAct = s.ctxAct := rfl
@[simp] theorem withPort_perr (s : State) (p : List PortItem) : (s.withPort p).perr = s.perr := rfl
@[simp] theorem withPort_fbEpoch (s : State) (p : List PortItem) : (s.withPort p).fbEpoch = s.fbEpoch := rfl
@[simp] theorem withPort_rawText (s : State) (p : List PortItem) : (s.withPort p).rawText = s.rawText := rfl
@[simp] theorem withPort_textFail (s : State) (p : List PortItem) : (s.withPort p).textFail = s.textFail := rfl
@[simp] theorem withPort_port (s : State) (p : List PortItem) : (s.withPort p).port = p := rfl

-- TF's report.
@[simp] theorem reportText_phase (s : State) (x : Failure) : (s.reportText x).phase = s.phase := rfl
@[simp] theorem reportText_count (s : State) (x : Failure) : (s.reportText x).count = s.count := rfl
@[simp] theorem reportText_crc (s : State) (x : Failure) : (s.reportText x).crc = s.crc := rfl
@[simp] theorem reportText_t1 (s : State) (x : Failure) : (s.reportText x).t1 = s.t1 := rfl
@[simp] theorem reportText_t0 (s : State) (x : Failure) : (s.reportText x).t0 = s.t0 := rfl
@[simp] theorem reportText_fb (s : State) (x : Failure) : (s.reportText x).fb = s.fb := rfl
@[simp] theorem reportText_rvalid (s : State) (x : Failure) : (s.reportText x).rvalid = s.rvalid := rfl
@[simp] theorem reportText_res (s : State) (x : Failure) : (s.reportText x).res = s.res := rfl
@[simp] theorem reportText_fkind (s : State) (x : Failure) : (s.reportText x).fkind = s.fkind := rfl
@[simp] theorem reportText_ctxOff (s : State) (x : Failure) : (s.reportText x).ctxOff = s.ctxOff := rfl
@[simp] theorem reportText_ctxExp (s : State) (x : Failure) : (s.reportText x).ctxExp = s.ctxExp := rfl
@[simp] theorem reportText_ctxAct (s : State) (x : Failure) : (s.reportText x).ctxAct = s.ctxAct := rfl
@[simp] theorem reportText_perr (s : State) (x : Failure) : (s.reportText x).perr = s.perr := rfl
@[simp] theorem reportText_fbEpoch (s : State) (x : Failure) : (s.reportText x).fbEpoch = s.fbEpoch := rfl
@[simp] theorem reportText_rawText (s : State) (x : Failure) : (s.reportText x).rawText = s.rawText := rfl
@[simp] theorem reportText_textFail (s : State) (x : Failure) : (s.reportText x).textFail = some x := rfl
@[simp] theorem reportText_port (s : State) (x : Failure) : (s.reportText x).port = s.port := rfl

end Sys2Proof.Laws
end

