-- ==== Sys2Proof/Laws/Memory.lean ====
section
/-! SUPPORT. The laws of the frame buffer: read after write, a write leaves every other address alone, and every operation
keeps the canonical form. -/

namespace Sys2Proof.Laws

open Sys2Proof.Machine

@[simp] theorem read_nil (a : Nat) : Memory.read [] a = none := rfl

theorem read_cons (k : Nat) (v : Byte) (m : Memory) (a : Nat) :
    Memory.read ((k, v) :: m) a = if k = a then some v else Memory.read m a := rfl

@[simp] theorem read_write_same (m : Memory) (a : Nat) (v : Byte) : (m.write a v).read a = some v := by
  induction m with
  | nil => simp [Memory.write, Memory.read]
  | cons c m ih =>
    obtain ⟨k, w⟩ := c
    by_cases hk : k = a
    · simp [Memory.write, Memory.read, hk]
    · by_cases hlt : a < k
      · simp [Memory.write, Memory.read, hk, hlt]
      · simpa [Memory.write, Memory.read, hk, hlt] using ih

theorem read_write_other (m : Memory) (a b : Nat) (v : Byte) (h : b ≠ a) : (m.write a v).read b = m.read b := by
  induction m with
  | nil => simp [Memory.write, Memory.read, h.symm]
  | cons c m ih =>
    obtain ⟨k, w⟩ := c
    by_cases hk : k = a
    · subst hk; simp [Memory.write, Memory.read, h.symm]
    · by_cases hlt : a < k
      · simp [Memory.write, Memory.read, hk, hlt, h.symm]
      · by_cases hb : k = b
        · subst hb; simp [Memory.write, Memory.read, h, hlt]
        · simpa [Memory.write, Memory.read, hk, hlt, hb] using ih

theorem mem_write (m : Memory) (a : Nat) (v : Byte) (c : Host.Cell) (h : c ∈ m.write a v) : c = (a, v) ∨ c ∈ m := by
  induction m with
  | nil => exact .inl (by simpa [Memory.write] using h)
  | cons d m ih =>
    obtain ⟨k, w⟩ := d
    by_cases hk : k = a
    · simp only [Memory.write, hk, if_true, List.mem_cons] at h ⊢; tauto
    · by_cases hlt : a < k
      · simp only [Memory.write, hk, hlt, if_true, if_false, List.mem_cons] at h ⊢; tauto
      · simp only [Memory.write, hk, hlt, if_false, List.mem_cons] at h ⊢; tauto

/-- A write inside FB keeps the canonical form. -/
theorem write_wf (m : Memory) (a : Nat) (v : Byte) (hm : m.wf) (ha : a < Config.fbSize) : (m.write a v).wf := by
  obtain ⟨hs, hb⟩ := hm
  refine ⟨?_, fun c hc => ?_⟩
  · induction m with
    | nil => simp [Memory.write]
    | cons d m ih =>
      obtain ⟨k, w⟩ := d
      rw [List.pairwise_cons] at hs
      obtain ⟨hd, hs⟩ := hs
      by_cases hk : k = a
      · subst hk
        simpa only [Memory.write, if_true, List.pairwise_cons] using ⟨hd, hs⟩
      · by_cases hlt : a < k
        · simp only [Memory.write, hk, hlt, if_true, if_false, List.pairwise_cons, List.mem_cons, forall_eq_or_imp]
          exact ⟨⟨trivial, fun c hc => lt_trans hlt (hd c hc)⟩, hd, hs⟩
        · simp only [Memory.write, hk, hlt, if_false, List.pairwise_cons]
          refine ⟨fun c hc => ?_, ih hs fun c hc => hb c (List.mem_cons_of_mem _ hc)⟩
          rcases mem_write m a v c hc with rfl | hc
          · exact lt_of_le_of_ne (not_lt.mp hlt) hk
          · exact hd c hc
  · rcases mem_write m a v c hc with rfl | hc
    · exact ha
    · exact hb c hc

@[simp] theorem nil_wf : Memory.wf [] := by simp [Memory.wf]

/-- Storing a byte keeps the canonical form, whatever COUNT is. -/
theorem storeByte_wf (s : State) (b : Byte) (h : s.fb.wf) : (s.storeByte b).wf := by
  unfold State.storeByte
  split
  · exact write_wf _ _ _ h ‹_›
  · exact h

/-- Storing a byte below 255 lists it at COUNT. -/
theorem storeByte_read_same (s : State) (b : Byte) (h : s.count.toNat < 255) :
    (s.storeByte b).read s.count.toNat = some b := by
  simp [State.storeByte, h]

/-- Storing a byte leaves every other address alone. -/
theorem storeByte_read_other (s : State) (b : Byte) (a : Nat) (h : s.count.toNat < 255 → a ≠ s.count.toNat) :
    (s.storeByte b).read a = s.fb.read a := by
  unfold State.storeByte
  split
  · exact read_write_other _ _ _ _ (h ‹_›)
  · rfl

/-- A listed byte is what FB reads as. -/
theorem fbByte_of_read (s : State) (a : Nat) (v : Byte) (h : s.fb.read a = some v) : s.fbByte a = v := by
  simp [State.fbByte, h]

/-- Two states with the same listed byte and the same RESET count read the same. -/
theorem fbByte_congr (s t : State) (a : Nat) (h : t.fb.read a = s.fb.read a) (he : t.fbEpoch = s.fbEpoch) :
    t.fbByte a = s.fbByte a := by
  simp [State.fbByte, h, he]

/-- A range of FB, byte by byte. -/
theorem fbRange_eq (s : State) (bs : List Byte) (a n : Nat) (h : a + n ≤ bs.length)
    (hr : ∀ i, i < a + n → s.fbByte i = byteAt bs i) : s.fbRange a n = (bs.drop a).take n := by
  apply List.ext_getElem
  · simp [State.fbRange]; omega
  · intro i h1 h2
    simp only [State.fbRange, List.length_map, List.length_range] at h1
    simp only [State.fbRange, List.getElem_map, List.getElem_range, List.getElem_take, List.getElem_drop]
    rw [hr _ (by omega), byteAt, List.getD_eq_getElem _ _ (by omega)]

end Sys2Proof.Laws
end

