-- ==== Sys2Proof/Laws/Commands.lean ====
section
/-! SUPPORT. What each stream command can do, said once: START, BYTE, END, and a whole datagram. -/

namespace Sys2Proof.Laws

open Sys2Proof.Machine Sys2Proof.Safety

@[simp] theorem exec_nop (d : Byte) (s : State) : exec (.nop d) s = .next s := rfl
@[simp] theorem exec_start (d : Byte) (s : State) : exec (.start d) s = .next (startCommand s) := rfl
@[simp] theorem exec_byte (b : Byte) (s : State) : exec (.byte b) s = .next (byteCommand b s) := rfl
@[simp] theorem exec_end (d : Byte) (s : State) : exec (.end_ d) s = .next (endCommand s) := rfl
@[simp] theorem exec_hk (f : FrameOperands) (s : State) :
    exec (.hk f) s = .next (presentDatagram (frameBytes Config.typeHk f) s) := rfl
@[simp] theorem exec_pd (f : FrameOperands) (s : State) :
    exec (.pd f) s = .next (presentDatagram (frameBytes Config.typePd f) s) := rfl

theorem byteCommand_idle (b : Byte) (s : State) (h : s.phase = .idle) : byteCommand b s = s.flagMisuse := by
  simp [byteCommand, h]

theorem byteCommand_recv (b : Byte) (s : State) (h : s.phase = .recv) : byteCommand b s = s.receiveByte b := by
  simp [byteCommand, h]

theorem endCommand_idle (s : State) (h : s.phase = .idle) : endCommand s = s.flagMisuse := by
  simp [endCommand, h]

theorem endCommand_recv (s : State) (h : s.phase = .recv) : endCommand s = s.settle (verdict s) := by
  simp [endCommand, h]

/-- Everything END's outcome can do to the state. -/
theorem settle_cases (s : State) (v : Verdict) :
    (∃ r, (r = .okHk ∨ r = .okPd) ∧ s.settle v = s.acceptFrame r) ∨ (∃ x, v = .fail x ∧ s.settle v = s.takeFailure x) := by
  cases v with
  | okHk => exact .inl ⟨.okHk, .inl rfl, rfl⟩
  | okPd => exact .inl ⟨.okPd, .inr rfl, rfl⟩
  | fail x => exact .inr ⟨x, rfl, rfl⟩

/-- What no outcome of END touches. -/
theorem settle_frame (s : State) (v : Verdict) :
    (s.settle v).phase = .idle ∧ (s.settle v).rvalid = true ∧ (s.settle v).count = s.count ∧ (s.settle v).crc = s.crc ∧
    (s.settle v).t1 = s.t1 ∧ (s.settle v).t0 = s.t0 ∧ (s.settle v).fb = s.fb ∧ (s.settle v).perr = s.perr ∧
    (s.settle v).fbEpoch = s.fbEpoch ∧ (s.settle v).rawText = s.rawText ∧ (s.settle v).textFail = s.textFail ∧
    (s.settle v).port = s.port := by
  cases v <;> exact ⟨rfl, rfl, rfl, rfl, rfl, rfl, rfl, rfl, rfl, rfl, rfl, rfl⟩

theorem satInc_toNat (c : BitVec 16) : (satInc c).toNat = min (c.toNat + 1) 65535 := by
  have := c.isLt
  unfold satInc
  split
  · rename_i h
    have h1 : (1 : BitVec 16).toNat = 1 := rfl
    simp only [Config.countMax] at h
    rw [BitVec.toNat_add, h1]
    omega
  · rename_i h
    simp only [Config.countMax] at h
    omega

@[simp] theorem startCommand_phase (s : State) : (startCommand s).phase = .recv := rfl
@[simp] theorem startCommand_fb (s : State) : (startCommand s).fb = s.fb := rfl
@[simp] theorem startCommand_perr (s : State) : (startCommand s).perr = (s.perr || s.phase == .recv) := rfl
@[simp] theorem startCommand_rawText (s : State) : (startCommand s).rawText = none := rfl

/-- After START the registers hold the empty datagram and no outcome. -/
theorem startCommand_holds (s : State) : HoldsBytes (startCommand s) [] ∧ NoOutcome (startCommand s) := by
  refine ⟨⟨rfl, rfl, rfl, rfl, ?_⟩, rfl, rfl, rfl, rfl, rfl, rfl⟩
  intro i hi
  simp at hi

theorem take_concat_sub_two (bs : List Byte) (b : Byte) (h : 2 ≤ bs.length) :
    (bs ++ [b]).take ((bs ++ [b]).length - 2) = bs.take (bs.length - 2) ++ [byteAt bs (bs.length - 2)] := by
  have h1 : (bs ++ [b]).length - 2 = bs.length - 2 + 1 := by simp; omega
  rw [h1, List.take_append_of_le_length (by omega : bs.length - 2 + 1 ≤ bs.length), List.take_add_one, byteAt_eq_getElem _ _ (by omega)]
  simp [List.getElem?_eq_getElem (show bs.length - 2 < bs.length by omega)]

/-- A BYTE in RECV extends the datagram the registers hold (44_stream_commands.md R216). -/
theorem receiveByte_holds (s : State) (bs : List Byte) (b : Byte) (h : HoldsBytes s bs) :
    HoldsBytes (s.receiveByte b) (bs ++ [b]) := by
  obtain ⟨hc, hcrc, h0, h1, hfb⟩ := h
  refine ⟨?_, ?_, ?_, ?_, ?_⟩
  · rw [receiveByte_count, satInc_toNat, hc]; simp; omega
  · rw [receiveByte_crc, hc, hcrc, h1]
    by_cases h2 : 2 ≤ bs.length
    · have : 2 ≤ min bs.length 65535 := by omega
      rw [if_pos this, if_pos h2, take_concat_sub_two _ _ h2, checksum_concat]
    · have : ¬ 2 ≤ min bs.length 65535 := by omega
      have h3 : (bs ++ [b]).length - 2 = 0 := by simp; omega
      have h4 : bs.length - 2 = 0 := by omega
      rw [if_neg this, h3, h4]; rfl
  · rw [receiveByte_t0]
    have := byteAt_append_right bs [b] 0
    simpa using this.symm
  · rw [receiveByte_t1, h0]
    by_cases h2 : 1 ≤ bs.length
    · have : 2 ≤ (bs ++ [b]).length := by simp only [List.length_append, List.length_cons, List.length_nil]; omega
      rw [if_pos h2, if_pos this, show (bs ++ [b]).length - 2 = bs.length - 1 by simp only [List.length_append, List.length_cons, List.length_nil]; omega,
        byteAt_append_left _ _ _ (by omega)]
    · have : ¬ 2 ≤ (bs ++ [b]).length := by simp only [List.length_append, List.length_cons, List.length_nil]; omega
      rw [if_neg h2, if_neg this]
  · intro i hi
    simp only [List.length_append, List.length_cons, List.length_nil, Nat.zero_add] at hi
    rw [receiveByte_fb]
    by_cases hlast : i = bs.length
    · have hcount : s.count.toNat = i := by omega
      have := storeByte_read_same s b (by omega)
      rw [hcount] at this
      rw [this, hlast]
      have := byteAt_append_right bs [b] 0
      simpa using this.symm
    · rw [storeByte_read_other _ _ _ (by omega), hfb i (by omega), byteAt_append_left _ _ _ (by omega)]

/-- BYTE commands from RECV: the datagram grows, no outcome appears, and nothing but CRC, T1, T0, COUNT and FB moves. -/
theorem byteCommands_holds (cs : List Byte) (s : State) (bs : List Byte) (hp : s.phase = .recv) (h : HoldsBytes s bs)
    (hn : NoOutcome s) :
    (byteCommands cs s).phase = .recv ∧ HoldsBytes (byteCommands cs s) (bs ++ cs) ∧ NoOutcome (byteCommands cs s) ∧
    (byteCommands cs s).perr = s.perr ∧ (byteCommands cs s).rawText = s.rawText ∧
    (byteCommands cs s).fbEpoch = s.fbEpoch ∧ (byteCommands cs s).textFail = s.textFail ∧
    (byteCommands cs s).port = s.port := by
  induction cs generalizing s bs with
  | nil => simpa [byteCommands] using ⟨hp, h, hn⟩
  | cons c cs ih =>
    rw [byteCommands, byteCommand_recv _ _ hp]
    have := ih (s.receiveByte c) (bs ++ [c]) hp (receiveByte_holds s bs c h) hn
    simpa using this

/-- The bytes of FB that a run of BYTE commands does not store stay. -/
theorem byteCommands_fb_other (cs : List Byte) (s : State) (bs : List Byte) (hp : s.phase = .recv) (h : HoldsBytes s bs)
    (a : Nat) (ha : (bs ++ cs).length ≤ a ∨ 255 ≤ a) : (byteCommands cs s).fb.read a = s.fb.read a := by
  induction cs generalizing s bs with
  | nil => rfl
  | cons c cs ih =>
    rw [byteCommands, byteCommand_recv _ _ hp]
    rw [ih (s.receiveByte c) (bs ++ [c]) hp (receiveByte_holds s bs c h) (by simpa using ha)]
    rw [receiveByte_fb]
    refine storeByte_read_other _ _ _ fun hlt => ?_
    have hc := h.1
    simp at ha
    omega

/-- FB keeps its canonical form. -/
theorem byteCommands_wf (cs : List Byte) (s : State) (h : s.fb.wf) : (byteCommands cs s).fb.wf := by
  induction cs generalizing s with
  | nil => exact h
  | cons c cs ih =>
    refine ih _ ?_
    cases hp : s.phase with
    | idle => rw [byteCommand_idle _ _ hp]; exact h
    | recv => rw [byteCommand_recv _ _ hp]; exact storeByte_wf s c h

/-- A state that holds a datagram reads its bytes from FB. -/
theorem fbByte_of_holds (s : State) (bs : List Byte) (h : HoldsBytes s bs) (i : Nat) (hi : i < bs.length) (h255 : i < 255) :
    s.fbByte i = byteAt bs i :=
  fbByte_of_read _ _ _ (h.2.2.2.2 i (by omega))

/-- What END finds is what `decode_bytes` finds: the verdict of a state that holds a datagram. -/
def verdictOf : DecodeResult → Verdict
  | .frame f =>
    match f.body with
    | .housekeeping _ => .okHk
    | .payloadData _ _ _ => .okPd
  | .failed x => .fail x

theorem count_eq (s : State) (n : Nat) (h : s.count.toNat = n) : s.count = BitVec.ofNat 16 n := by
  apply BitVec.eq_of_toNat_eq
  have := s.count.isLt
  rw [BitVec.toNat_ofNat]
  omega

theorem count_sub (s : State) (n k : Nat) (h : s.count.toNat = n) (hk : k ≤ n) :
    s.count - BitVec.ofNat 16 k = BitVec.ofNat 16 (n - k) := by
  apply BitVec.eq_of_toNat_eq
  have := s.count.isLt
  simp only [BitVec.toNat_sub, BitVec.toNat_ofNat, h]
  omega

/-- 44_stream_commands.md R214 against 42_frame_decoder.md R173. -/
theorem verdict_of_holds (s : State) (bs : List Byte) (h : HoldsBytes s bs) : verdict s = verdictOf (decodeBytes bs) := by
  have hb := fbByte_of_holds s bs h
  obtain ⟨hc, hcrc, h0, h1, -⟩ := h
  unfold verdict decodeBytes
  simp only [hc]
  by_cases hz : bs.length = 0
  · simp [hz, verdictOf]
  by_cases h12 : bs.length < 12
  · rw [if_neg (by omega), if_pos (by simp only [Config.minLen]; omega), if_neg hz, if_pos h12]
    rw [verdictOf, count_eq s _ hc, show min bs.length 65535 = bs.length by omega]
  rw [if_neg (by omega), if_neg (by simp only [Config.minLen]; omega), if_neg hz, if_neg h12]
  have hsync : s.fbBe16 0 = be16At bs 0 := by
    rw [State.fbBe16, be16At, hb 0 (by omega) (by omega), hb 1 (by omega) (by omega)]
  have hlen : s.fbByte 2 = byteAt bs 2 := hb 2 (by omega) (by omega)
  rw [hsync, hlen]
  by_cases hs : be16At bs 0 ≠ Config.syncConst
  · rw [if_pos hs, if_pos hs, verdictOf]
  rw [if_neg hs, if_neg hs]
  have hlt := (byteAt bs 2).isLt
  by_cases hl : (byteAt bs 2).toNat ≠ bs.length
  · rw [if_pos hl, if_pos (by omega), verdictOf, count_eq s _ hc]
  rw [if_neg hl, if_neg (by omega)]
  have hm : ¬ (byteAt bs 2).toNat < Config.minLen := by simp only [Config.minLen]; omega
  rw [if_neg hm, if_neg hm]
  have hchk : be16 s.t1 s.t0 = be16At bs (bs.length - 2) := by
    rw [h0, h1, if_pos (by omega), if_pos (by omega), be16At, show bs.length - 2 + 1 = bs.length - 1 by omega]
  have hcomp : s.crc = checksum (slice bs 0 (bs.length - 2)) := by rw [hcrc, slice]; rfl
  have hn : s.count.toNat = bs.length := by omega
  rw [hchk, hcomp]
  by_cases hk : checksum (slice bs 0 (bs.length - 2)) ≠ be16At bs (bs.length - 2)
  · rw [if_pos hk, if_pos hk, verdictOf, ← count_sub s _ 2 hn (by omega)]; rfl
  rw [if_neg hk, if_neg hk, verdictByType, decodeByType, hb 3 (by omega) (by omega)]
  by_cases ht : byteAt bs 3 = Config.typeHk
  · rw [if_pos ht, if_pos ht, verdictHk, decodeHk, hn]
    by_cases hp : bs.length - 12 < Config.hkMinPayload
    · rw [if_pos hp, if_pos hp, verdictOf, ← count_sub s _ 12 hn (by omega)]; rfl
    · rw [if_neg hp, if_neg hp]; rfl
  rw [if_neg ht, if_neg ht]
  by_cases hp : byteAt bs 3 = Config.typePd
  · rw [if_pos hp, if_pos hp]; rfl
  · rw [if_neg hp, if_neg hp]; rfl

/-- A whole datagram, said once: what it leaves in the data registers, the outcome, and what it does not touch. -/
theorem presentDatagram_spec (bs : List Byte) (s : State) :
    HoldsBytes (presentDatagram bs s) bs ∧ HasOutcome (presentDatagram bs s) (decodeBytes bs) ∧
    (presentDatagram bs s).phase = .idle ∧ (presentDatagram bs s).perr = (s.perr || s.phase == .recv) ∧
    (presentDatagram bs s).rawText = none ∧ (presentDatagram bs s).fbEpoch = s.fbEpoch ∧
    (presentDatagram bs s).textFail = s.textFail ∧ (presentDatagram bs s).port = s.port ∧
    (∀ a, bs.length ≤ a ∨ 255 ≤ a → (presentDatagram bs s).fb.read a = s.fb.read a) ∧
    (s.fb.wf → (presentDatagram bs s).fb.wf) := by
  have hst := startCommand_holds s
  obtain ⟨hp, hh, -, hperr, hraw, hep, htf, hpo⟩ := byteCommands_holds bs (startCommand s) [] rfl hst.1 hst.2
  have hother := byteCommands_fb_other bs (startCommand s) [] rfl hst.1
  rw [List.nil_append] at hh
  have hv := verdict_of_holds _ _ hh
  have he : presentDatagram bs s = (byteCommands bs (startCommand s)).settle (verdictOf (decodeBytes bs)) := by
    rw [presentDatagram, endCommand_recv _ hp, hv]
  obtain ⟨f1, f2, f3, f4, f5, f6, f7, f8, f9, f10, f11, f12⟩ :=
    settle_frame (byteCommands bs (startCommand s)) (verdictOf (decodeBytes bs))
  rw [he]
  refine ⟨?_, ?_, f1, f8.trans hperr, f10.trans hraw, f9.trans hep, f11.trans htf, f12.trans hpo, fun a ha => ?_, fun hw => ?_⟩
  · obtain ⟨a1, a2, a3, a4, a5⟩ := hh
    exact ⟨by rw [f3, a1], by rw [f4, a2], by rw [f6, a3], by rw [f5, a4], fun i hi => by rw [f7, a5 i hi]⟩
  · cases hd : decodeBytes bs with
    | failed x => exact ⟨rfl, rfl, rfl, rfl, rfl, rfl⟩
    | frame f =>
      cases hbody : f.body <;> simp [verdictOf, HasOutcome, hbody, State.settle]
  · rw [f7, hother a (by simpa using ha)]; rfl
  · rw [f7]; exact byteCommands_wf bs _ hw

end Sys2Proof.Laws
end

