-- ==== Sys2Proof/Laws/PerInstr.lean ====
section
/-! SUPPORT. Statements made per instruction. MatchesRow: the encoding of an instruction matches its row of
spec/opcode_table.json under the row's mask (30_encoding.md R91, R111). -/

namespace Sys2Proof.Laws

open Sys2Proof.Machine

theorem commandWord_masked (cmd : BitVec 2) (data : Byte) :
    (commandWord cmd data).toNat &&& 0x300 = cmd.toNat * 256 := by
  have h : commandWord cmd data &&& 0x300#10 = commandWord cmd 0 := by
    apply BitVec.eq_of_getLsbD_eq
    intro i hi
    simp only [commandWord, BitVec.getLsbD_and, BitVec.getLsbD_append]
    interval_cases i <;> simp
  have := congrArg BitVec.toNat h
  rw [BitVec.toNat_and] at this
  refine this.trans ?_
  have hz : (commandWord cmd 0).toNat = cmd.toNat <<< 8 ||| (0 : Byte).toNat := by
    simp only [commandWord, BitVec.toNat_append]
  rw [hz, Nat.shiftLeft_eq]
  exact Nat.or_zero _

theorem be32_masked (a b c d : Byte) : (be32 a b c d).toNat &&& 0xFFFF00FF = (be16 a b).toNat * 65536 + d.toNat := by
  have key : be32 a b c d &&& 0xFFFF00FF#32 = be32 a b 0 d := by
    apply BitVec.eq_of_getLsbD_eq
    intro i hi
    simp only [be32, be16, BitVec.getLsbD_and, BitVec.getLsbD_append]
    interval_cases i <;> simp
  have := congrArg BitVec.toNat key
  rw [BitVec.toNat_and] at this
  refine this.trans ?_
  rw [be32_toNat, be16_toNat 0 d]
  simp

theorem frameBytes_masked (type : Byte) (f : FrameOperands) :
    (be32At (frameBytes type f) 0).toNat &&& 0xFFFF00FF = 0x1ACF0000 + type.toNat := by
  have h0 : be16At (frameBytes type f) 0 = Config.syncConst := (frameBytes_fields type f).1
  have h3 : byteAt (frameBytes type f) 3 = type := (frameBytes_fields type f).2.2.1
  rw [be32At, be32_masked]
  change (be16At (frameBytes type f) 0).toNat * 65536 + _ = _
  rw [h0, h3]
  rfl

/-- The encoding of an instruction matches its row. -/
def MatchesRow.Statement (i : Instr) : Prop :=
  headWord (encode i) &&& (rowOf i).mask = (rowOf i).pattern

theorem MatchesRow.nop (data : Byte) : MatchesRow.Statement (.nop data) := commandWord_masked 0 data
theorem MatchesRow.start (data : Byte) : MatchesRow.Statement (.start data) := commandWord_masked 1 data
theorem MatchesRow.byte (data : Byte) : MatchesRow.Statement (.byte data) := commandWord_masked 2 data
theorem MatchesRow.end_ (data : Byte) : MatchesRow.Statement (.end_ data) := commandWord_masked 3 data
theorem MatchesRow.hk (f : FrameOperands) : MatchesRow.Statement (.hk f) := frameBytes_masked Config.typeHk f
theorem MatchesRow.pd (f : FrameOperands) : MatchesRow.Statement (.pd f) := frameBytes_masked Config.typePd f

end Sys2Proof.Laws
end

