-- ==== Sys2Proof/Laws/Programs.lean ====
section
/-! SUPPORT. Runs of programs: NOPs fall away, a run of BYTEs is `byteCommands`, a DGRAM is `presentDatagram`; and no stream
command looks at the port. -/

namespace Sys2Proof.Laws

open Sys2Proof.Machine Sys2Proof.Safety

/-- NOPs do not matter to a run. -/
theorem runProgram_filter (prog : List Instr) (s : State) :
    runProgram prog s = runProgram (prog.filter (fun i => !isNop i)) s := by
  induction prog generalizing s with
  | nil => rfl
  | cons i is ih => cases i <;> simp [isNop, runProgram, ih]

/-- A run of BYTEs, then the rest. -/
theorem runProgram_bytes (bs : List Byte) (rest : List Instr) (s : State) :
    runProgram (bs.map Instr.byte ++ rest) s = runProgram rest (byteCommands bs s) := by
  induction bs generalizing s with
  | nil => rfl
  | cons b bs ih => simp [runProgram, byteCommands, ih]

/-- A DGRAM, with any number of NOPs mixed in. -/
theorem runProgram_dgram (bs : List Byte) (prog : List Instr) (s : State) (h : IsDgram bs prog) :
    runProgram prog s = .next (presentDatagram bs s) := by
  obtain ⟨d, e, h⟩ := h
  rw [runProgram_filter, h]
  simp [runProgram, runProgram_bytes, presentDatagram]

theorem byteCommand_withPort (b : Byte) (s : State) (p : List PortItem) :
    byteCommand b (s.withPort p) = (byteCommand b s).withPort p := by
  cases h : s.phase with
  | idle => rw [byteCommand_idle b s h, byteCommand_idle b (s.withPort p) h]; rfl
  | recv => rw [byteCommand_recv b s h, byteCommand_recv b (s.withPort p) h]; rfl

theorem byteCommands_withPort (bs : List Byte) (s : State) (p : List PortItem) :
    byteCommands bs (s.withPort p) = (byteCommands bs s).withPort p := by
  induction bs generalizing s with
  | nil => rfl
  | cons b bs ih => rw [byteCommands, byteCommand_withPort, ih]; rfl

theorem endCommand_withPort (s : State) (p : List PortItem) :
    endCommand (s.withPort p) = (endCommand s).withPort p := by
  cases h : s.phase with
  | idle => rw [endCommand_idle s h, endCommand_idle (s.withPort p) h]; rfl
  | recv =>
    rw [endCommand_recv s h, endCommand_recv (s.withPort p) h]
    show (s.withPort p).settle (verdict s) = _
    cases verdict s <;> rfl

/-- A datagram that is no instruction of the table is presented all the same. -/
theorem takeDatagram_reject (bs : List Byte) (s : State) (r : Reject) (h : decodeFrame bs = .reject r) :
    takeDatagram bs s = .next (presentDatagram bs s) := by
  rw [takeDatagram, h]

/-- The instructions that take an END. -/
theorem takesEnd_iff (i : Instr) :
    takesEnd i = true ↔ (∃ d, i = .end_ d) ∨ (∃ f, i = .hk f) ∨ ∃ f, i = .pd f := by
  cases i <;> simp [takesEnd]

theorem presentedWords_withPort (s : State) (x : PortItem) (rest : List PortItem) :
    (s.withPort (x :: rest)).presentedWords = wordsOf x := rfl

/-- A transfer happens exactly when the host presents a command word. -/
theorem transfer_iff (s : State) : s.transfer = true ↔ s.presentedWords ≠ [] := by
  simp [State.transfer, State.inValid, State.inReady]

theorem donePulse_withPort (s : State) (x : PortItem) (rest : List PortItem) :
    (s.withPort (x :: rest)).donePulse = inputTakesEnd x := rfl

end Sys2Proof.Laws
end

