-- ==== Sys2Proof/Tests/Slice0.lean ====
section
/-! SUPPORT. The model's own tests. Expected values come from spec/95_test_vectors.md and the rules' own examples. The
theorems named witness_… show that the hypotheses of a statement, clause by clause, are met by concrete values. -/

namespace Sys2Proof.Tests

-- One theorem after the other: the kernel checks them in order anyway.
set_option Elab.async false

open Sys2Proof.Machine Sys2Proof.Safety Sys2Proof.Laws

-- ---- The frames of 95_test_vectors.md and small states ----

/-- F1. -/
def f1 : List Byte := [0x1A, 0xCF, 0x14, 0x10, 0x00, 0x01, 0x65, 0x53, 0xF1, 0x00, 0x35, 0xE8, 0x16, 0x1C, 0x00, 0x00,
  0x02, 0x00, 0x5A, 0x46]
/-- The operands of F1, read off the wire format by hand. -/
def f1Operands : FrameOperands := ⟨0x14, 1, 1700000000, [0x35, 0xE8, 0x16, 0x1C, 0x00, 0x00, 0x02, 0x00], 0x5A46⟩
/-- F2. -/
def f2 : List Byte := [0x1A, 0xCF, 0x14, 0x10, 0x00, 0x07, 0x65, 0x53, 0xF1, 0x3C, 0x2A, 0x30, 0xFB, 0x34, 0x00, 0x01,
  0x11, 0x70, 0xC1, 0x12]
/-- F3. -/
def f3 : List Byte := [0x1A, 0xCF, 0x11, 0x20, 0x00, 0x02, 0x65, 0x53, 0xF1, 0x78, 0xDE, 0xAD, 0xBE, 0xEF, 0x01, 0xF1,
  0xD4]
/-- The operands of F3, read off the wire format by hand. -/
def f3Operands : FrameOperands := ⟨0x11, 2, 1700000120, [0xDE, 0xAD, 0xBE, 0xEF, 0x01], 0xF1D4⟩
/-- F4, the shortest frame. -/
def f4 : List Byte := [0x1A, 0xCF, 0x0C, 0x20, 0xFF, 0xFF, 0xFF, 0xFF, 0xFF, 0xFF, 0xAB, 0x20]
/-- F5, an unassigned type with a right checksum. -/
def f5 : List Byte := [0x1A, 0xCF, 0x14, 0x30, 0x00, 0x01, 0x65, 0x53, 0xF1, 0x00, 0x35, 0xE8, 0x16, 0x1C, 0x00, 0x00,
  0x02, 0x00, 0x7A, 0x86]
/-- The operands of F6: housekeeping with 7 payload bytes and a right checksum. -/
def f6Operands : FrameOperands := ⟨0x13, 1, 1700000000, [0x35, 0xE8, 0x16, 0x1C, 0x00, 0x00, 0x02], 0xE64A⟩
/-- F7, a wrong trailer. -/
def f7 : List Byte := f1.take 19 ++ [0x47]
/-- A datagram opened after RESET, its bytes so far taken. -/
def receiving (bs : List Byte) : State := byteCommands bs (startCommand State.reset)
/-- A whole datagram after RESET. -/
def ended (bs : List Byte) : State := presentDatagram bs State.reset
/-- Reset, with inputs presented. -/
def presented (items : List PortItem) : State := State.reset.withPort items
/-- A program's commands on the port. -/
def onPort (prog : List Instr) : List PortItem := prog.map encode
/-- Reset, in RECV, with a given COUNT and the byte bounds of FB untouched. -/
def atCount (n : Nat) : State := { startCommand State.reset with count := BitVec.ofNat 16 n }
/-- What the stream-command tables of 95_test_vectors.md section 3.5 list, in their order. -/
def row (s : State) : List Nat :=
  [(phaseCode s.phase).toNat, s.count.toNat, s.crc.toNat, s.t1.toNat, s.t0.toNat, s.rvalid.toNat, (resCode s.res).toNat,
    s.fkind.toNat, s.ctxOff.toNat, s.ctxExp.toNat, s.ctxAct.toNat, s.perr.toNat]
/-- The next state of an outcome, for the tests. -/
def nextOf (o : Host.Outcome State Fault Refusal) : Option State :=
  match o with
  | .next s => some s
  | .fault _ => none
  | .refused _ => none

-- ---- WellFormed: an ill-formed term for each check ----

theorem test_wf_accepts_hk : (Instr.hk f1Operands).wf = true := by decide +kernel
theorem test_wf_accepts_pd : (Instr.pd f3Operands).wf = true := by decide +kernel
theorem test_wf_refuses_len : (Instr.hk { f1Operands with len := 0x15 }).wf = false := by decide +kernel
theorem test_wf_refuses_len_pd : (Instr.pd { f3Operands with len := 0x10 }).wf = false := by decide +kernel
theorem test_wf_refuses_short_hk_payload :
    f6Operands.lenOk = true ∧ f6Operands.chkOk 0x10 = true ∧ (Instr.hk f6Operands).wf = false := by decide +kernel
theorem test_wf_refuses_chk : (Instr.hk { f1Operands with chk := 0x5A47 }).wf = false := by decide +kernel
theorem test_wf_refuses_chk_pd : (Instr.pd { f3Operands with chk := 0xF1D5 }).wf = false := by decide +kernel

-- ---- Decode: words written out from the spec's encodings ----

theorem test_decode_nop : decodeWord 0b0011111111#10 = .nop 0xFF := by decide
theorem test_decode_start : decodeWord 0b0100000000#10 = .start 0x00 := by decide
theorem test_decode_byte : decodeWord 0b1000010100#10 = .byte 0x14 := by decide
theorem test_decode_end : decodeWord 0b1100000000#10 = .end_ 0x00 := by decide
theorem test_decode_hk : decodeFrame f1 = .instr (.hk f1Operands) := by decide +kernel
theorem test_decode_pd : decodeFrame f3 = .instr (.pd f3Operands) := by decide +kernel
theorem test_decode_rejects :
    decodeFrame f5 = .reject .noType ∧ decodeFrame (0x1B :: f1.drop 1) = .reject .noSync ∧
    decodeFrame (f4.take 11) = .reject .tooShortForAFrame := by decide +kernel
/-- The opcode table's own match words: 10 bits for a command, the first four bytes for a frame. -/
theorem test_table_words :
    decodeTableWord 16 0x000 = some (.nop 0) ∧ decodeTableWord 16 0x100 = some (.start 0) ∧
    decodeTableWord 16 0x200 = some (.byte 0) ∧ decodeTableWord 16 0x300 = some (.end_ 0) ∧
    decodeTableWord 32 0x1ACF0010 = some (.hk ⟨0, 0, 0, [0, 0, 0, 0, 0, 0, 0, 0], 0⟩) ∧
    decodeTableWord 32 0x1ACF0020 = some (.pd ⟨0, 0, 0, [], 0⟩) := by decide +kernel
/-- No two rows of the opcode table match one word (30_encoding.md R111). -/
theorem test_rows_disjoint :
    (cmdRows.Pairwise fun a b => a.pattern &&& b.mask ≠ b.pattern) ∧
    (frameRows.Pairwise fun a b => a.pattern &&& b.mask ≠ b.pattern) := by decide

-- ---- One instruction, one step ----

/-- 3.5: NOP in RECV. -/
theorem test_nop_in_recv : exec (.nop 0x55) (receiving [0x1A, 0xCF, 0x14]) = .next (receiving [0x1A, 0xCF, 0x14]) := rfl
/-- 3.5: START after RESET, and in RECV (PERR, restart). -/
theorem test_start_rows :
    (nextOf (exec (.start 0) State.reset)).map row = some [1, 0, 0, 0, 0, 0, 0, 0, 0, 0, 0, 0] ∧
    (nextOf (exec (.start 0) (receiving [0x1A, 0xCF, 0x14]))).map row =
      some [1, 0, 0, 0, 0, 0, 0, 0, 0, 0, 0, 1] := by decide +kernel
/-- 3.5: the third byte brings the first into CRC; BYTE in IDLE sets PERR only. -/
theorem test_byte_rows :
    (nextOf (exec (.byte 0x14) (receiving [0x1A, 0xCF]))).map row =
      some [1, 3, 0x805F, 0xCF, 0x14, 0, 0, 0, 0, 0, 0, 0] ∧
    (nextOf (exec (.byte 0x1A) State.reset)).map row = some [0, 0, 0, 0, 0, 0, 0, 0, 0, 0, 0, 1] := by
  decide +kernel
/-- 3.5: offset 254 is stored, offset 255 is not, COUNT stops at 65535. -/
theorem test_byte_bounds :
    (nextOf (exec (.byte 7) (atCount 254))).map (fun s => (s.count.toNat, s.fb)) = some (255, [(254, 7)]) ∧
    (nextOf (exec (.byte 7) (atCount 255))).map (fun s => (s.count.toNat, s.fb)) = some (256, []) ∧
    (nextOf (exec (.byte 7) (atCount 65535))).map (fun s => (s.count.toNat, s.fb)) = some (65535, []) := by
  decide +kernel
/-- 3.5: END of a short datagram, of an empty one, and in IDLE. -/
theorem test_end_rows :
    (nextOf (exec (.end_ 0) (receiving [0x1A, 0xCF, 0x03]))).map row =
      some [0, 3, 0x805F, 0xCF, 0x03, 1, 3, 4, 0, 12, 3, 0] ∧
    (nextOf (exec (.end_ 0) (receiving []))).map row = some [0, 0, 0, 0, 0, 1, 3, 1, 0, 0, 0, 0] ∧
    (nextOf (exec (.end_ 0) State.reset)).map row = some [0, 0, 0, 0, 0, 0, 0, 0, 0, 0, 0, 1] := by
  decide +kernel
/-- 3.5: END of F1 and of F7. -/
theorem test_end_frames :
    (nextOf (exec (.end_ 0) (receiving f1))).map row = some [0, 20, 0x5A46, 0x5A, 0x46, 1, 1, 0, 0, 0, 0, 0] ∧
    (nextOf (exec (.end_ 0) (receiving f7))).map row =
      some [0, 20, 0x5A46, 0x5A, 0x47, 1, 3, 8, 18, 0x5A46, 0x5A47, 0] := by decide +kernel
/-- P3: F2 at the block, with its views and both alerts. -/
theorem test_hk_f2 :
    row (ended f2) = [0, 20, 0xC112, 0xC1, 0x12, 1, 1, 0, 0, 0, 0, 0] ∧
    (ended f2).viewSatid = some 7 ∧ (ended f2).viewTs = some 1700000060 ∧ (ended f2).viewBv = some 10800 ∧
    (ended f2).viewBt = some (-5) ∧ (ended f2).viewMsi = some 52 ∧ (ended f2).viewSsr = some 70000 ∧
    (ended f2).viewAlerts defaultRules =
      some [⟨1, 2, 52, 0, 7, 1700000060, 1700000060⟩, ⟨2, 0, 10800, 1, 7, 1700000060, 1700000060⟩] := by decide +kernel
/-- F6: a housekeeping frame with 7 payload bytes. -/
theorem test_hk_f6 : (nextOf (exec (.hk f6Operands) State.reset)).map
    (fun s => (resCode s.res, s.fkind, s.ctxOff, s.ctxExp, s.ctxAct)) = some (3, 9, 10, 8, 7) := by decide +kernel
/-- F3 and F4 at the block. -/
theorem test_pd_f3 :
    (nextOf (exec (.pd f3Operands) State.reset)).map row =
      some [0, 17, 0xF1D4, 0xF1, 0xD4, 1, 2, 0, 0, 0, 0, 0] ∧
    (ended f3).viewPayloadHex = some [0x64, 0x65, 0x61, 0x64, 0x62, 0x65, 0x65, 0x66, 0x30, 0x31] ∧
    (ended f3).viewPayloadLength = some 5 ∧ (ended f3).viewBv = none := by decide +kernel
theorem test_pd_f4 : row (ended f4) = [0, 12, 0xAB20, 0xAB, 0x20, 1, 2, 0, 0, 0, 0, 0] := by decide +kernel

-- ---- Functions, against the spec's vectors ----

/-- 3.1: the nine bytes of "123456789", and two others. -/
theorem test_checksum :
    checksum [0x31, 0x32, 0x33, 0x34, 0x35, 0x36, 0x37, 0x38, 0x39] = 0xFEE8 ∧ checksum [0xFF, 0xFF] = 0x800D ∧
    checksum [0x1A, 0xCF] = 0xDEA1 ∧ crcUpdateByte 0x1234 0x56 = 0x3598 ∧ crcStepBit 0xC002 = 0x0001 := by decide +kernel
/-- 3.2: "1A  CF", "0X", " 0x\n", and F1's text in capitals behind a 0x with a newline inside. -/
theorem test_text :
    decodeText [0x31, 0x41, 0x20, 0x20, 0x43, 0x46] = .failed ⟨.invalidHexChars, 2, 0, 0x20⟩ ∧
    decodeText [0x30, 0x58] = .failed ⟨.invalidHexChars, 1, 0, 0x58⟩ ∧
    decodeText [0x20, 0x30, 0x78, 0x0A] = .failed ⟨.emptyInput, 0, 0, 0⟩ ∧
    decodeText [0x20, 0x30, 0x78, 0x31, 0x41, 0x0D, 0x0A, 0x43, 0x46, 0x30, 0x33, 0x0A] =
      .failed ⟨.tooShort, 0, 12, 3⟩ := by decide +kernel
/-- 3.3: F13, the signed field at its minimum. -/
theorem test_decode_f13 :
    decodeBytes [0x1A, 0xCF, 0x14, 0x10, 0x00, 0x01, 0x65, 0x53, 0xF1, 0x00, 0x35, 0xE8, 0x80, 0xFF, 0xFF, 0xFF, 0xFF,
      0xFF, 0x6B, 0x7B] =
    .frame ⟨1, 1700000000, [0x1A, 0xCF, 0x14, 0x10, 0x00, 0x01, 0x65, 0x53, 0xF1, 0x00, 0x35, 0xE8, 0x80, 0xFF, 0xFF,
      0xFF, 0xFF, 0xFF, 0x6B, 0x7B],
      hexLower [0x1A, 0xCF, 0x14, 0x10, 0x00, 0x01, 0x65, 0x53, 0xF1, 0x00, 0x35, 0xE8, 0x80, 0xFF, 0xFF, 0xFF, 0xFF,
        0xFF, 0x6B, 0x7B], .housekeeping ⟨13800, -128, 255, 4294967295⟩⟩ := by decide +kernel
/-- 3.4: the table RULES', read on F2's and F13's fields. -/
theorem test_rules_prime :
    let red : RuleEntry := ⟨1, 1, 1, BitVec.ofInt 32 (-20), 2⟩
    let yellow : RuleEntry := ⟨2, 3, 2, 70000, 3⟩
    let absent : RuleEntry := ⟨2, 5, 0, 0, 4⟩
    (buildRules [red, yellow, absent]).isSome = true ∧
    [red, yellow, absent].map (ruleFires ⟨10800, -5, 52, 70000⟩) = [false, true, false] ∧
    [red, yellow, absent].map (ruleFires ⟨13800, -128, 255, 4294967295⟩) = [true, true, false] := by decide +kernel
/-- 30_encoding.md R110: the encoder builds F2. -/
theorem test_encode_f2 : encode (encodeHk 7 1700000060 10800 (-5) 52 70000) = .datagram f2 := by decide +kernel
/-- 20_memory.md R60: reset's frame buffer has the canonical form. -/
theorem test_reset_memory : State.reset.fb.wf := by decide
/-- P4's first step and the reset that follows: PERR is set, RESET clears it and keeps what is still presented. -/
theorem test_reset_event :
    (nextOf (step { (presented [.rst, .word 0x100]) with perr := true })).map (fun s => (row s, s.port)) =
      some ([0, 0, 0, 0, 0, 0, 0, 0, 0, 0, 0, 0], [.word 0x100]) := by decide +kernel
/-- Presenting a table word makes the very next step run it. -/
theorem test_fetch_word :
    (nextOf (step (State.reset.withFetchWord 16 0x100))).map row =
      some [1, 0, 0, 0, 0, 0, 0, 0, 0, 0, 0, 0] ∧
    (nextOf (step (State.reset.withFetchWord 32 0x1ACF0010))).map (fun t => (row t).take 2 ++ (row t).drop 6) =
      some [0, 20, 3, 6, 2, 0, 20, 0] := by decide +kernel

-- ---- Witnesses: the hypotheses of the statements are met ----

theorem witness_EncodeOfDecode :
    decodeItem (.datagram f1) = .instr (.hk f1Operands) ∧ decodeItem (.word 0x214) = .instr (.byte 0x14) := by
  decide +kernel
/-- Both rows, at the least length that decodes, and one byte below it. -/
theorem witness_FrameRows :
    (decodeFrame (0x1A :: 0xCF :: 0x00 :: 0x10 :: List.replicate 8 0) = .instr (.hk ⟨0, 0, 0, [], 0⟩)) ∧
    (decodeFrame f4 = .instr (.pd ⟨0x0C, 0xFFFF, 0xFFFFFFFF, [], 0xAB20⟩)) ∧
    decodeFrame (0x1A :: 0xCF :: 0x00 :: 0x10 :: List.replicate 7 0) = .reject .tooShortForAFrame := by decide +kernel
/-- The least and the greatest command word of each command. -/
theorem witness_CommandCodes :
    (0x000#10).toNat / 256 = 0 ∧ (0x0FF#10).toNat / 256 = 0 ∧ (0x100#10).toNat / 256 = 1 ∧ (0x1FF#10).toNat / 256 = 1 ∧
    (0x200#10).toNat / 256 = 2 ∧ (0x2FF#10).toNat / 256 = 2 ∧ (0x300#10).toNat / 256 = 3 ∧ (0x3FF#10).toNat / 256 = 3 := by
  decide
/-- " 1A \n": one character of WS in front and two behind, the bounds of the set among them. -/
theorem witness_Strip :
    (∀ c ∈ ([0x20] : Text) ++ [0x09, 0x0D], isWs c = true) ∧
    normalise (([0x20] : Text) ++ [0x31, 0x41] ++ [0x09, 0x0D]) = [0x31, 0x41] ∧ isWs 0x08 = false ∧ isWs 0x0E = false ∧
    isWs 0x1F = false := by decide
/-- 3.1: 0x8603 XOR 0x8005 = 0x0606. -/
theorem witness_Linear : ([1, 0] : List Byte).length = ([0, 1] : List Byte).length ∧
    checksum [1, 0] = 0x8603 ∧ checksum [0, 1] = 0x8005 ∧ checksum [1, 1] = 0x0606 := by decide +kernel
theorem witness_OneByte : (0x5A : Byte) ≠ 0x5B ∧ checksum (f1.take 18 ++ 0x5A :: [0x46]) = 0 := by decide +kernel
/-- One text for each of the four clauses: "0x", "abc", "1G", "1acf03". -/
theorem witness_DecodeText :
    normalise [0x30, 0x78] = [] ∧
    (normalise [0x61, 0x62, 0x63]).length % 2 = 1 ∧
    ((normalise [0x31, 0x47]).length % 2 = 0 ∧ normalise [0x31, 0x47] = [0x31] ++ 0x47 :: [] ∧
      (∀ d ∈ ([0x31] : Text), digitVal d ≠ none) ∧ digitVal 0x47 = none) ∧
    (normalise [0x31, 0x61, 0x63, 0x66, 0x30, 0x33] ≠ [] ∧
      (normalise [0x31, 0x61, 0x63, 0x66, 0x30, 0x33]).length % 2 = 0 ∧
      ∀ d ∈ normalise [0x31, 0x61, 0x63, 0x66, 0x30, 0x33], digitVal d ≠ none) := by decide +kernel
/-- E4 and F24, the two nearest misses, and a text that fails. -/
theorem witness_DeclaredLength :
    decodeBytes [0x1A, 0xCF, 0x0B, 0x20, 0, 0, 0, 0, 0, 0, 0] = .failed ⟨.tooShort, 0, 12, 11⟩ ∧
    decodeBytes (0x1A :: 0xCF :: 0x0B :: f1.drop 3) = .failed ⟨.lengthMismatch, 2, 11, 20⟩ ∧
    decodeText [0x7A, 0x7A] = .failed ⟨.invalidHexChars, 0, 0, 0x7A⟩ := by decide +kernel
/-- The shortest frame and the shortest housekeeping frame. -/
theorem witness_FrameLengths :
    (∃ f, decodeBytes f4 = .frame f) ∧ f4.length = 12 ∧
    (∃ f h, decodeBytes f1 = .frame f ∧ f.body = .housekeeping h) ∧ f1.length = 20 := by
  refine ⟨⟨⟨0xFFFF, 0xFFFFFFFF, f4, hexLower f4, .payloadData [] [] 0⟩, ?_⟩, ?_,
    ⟨⟨1, 1700000000, f1, hexLower f1, .housekeeping ⟨13800, 22, 28, 512⟩⟩, ⟨13800, 22, 28, 512⟩, ?_, rfl⟩, ?_⟩ <;> decide +kernel
/-- Each clause of the failure order: E0, E1, E3, F8, F9, F7, F6, F25, F5, F26. -/
theorem witness_FirstFailing :
    decodeBytes [] = .failed ⟨.emptyInput, 0, 0, 0⟩ ∧ decodeBytes [0x1A] = .failed ⟨.tooShort, 0, 12, 1⟩ ∧
    decodeBytes (f4.take 11) = .failed ⟨.tooShort, 0, 12, 11⟩ ∧
    decodeBytes (0x1B :: f1.drop 1) = .failed ⟨.syncMismatch, 0, 0x1ACF, 0x1BCF⟩ ∧
    decodeBytes (0x1A :: 0xCF :: 0x15 :: f1.drop 3) = .failed ⟨.lengthMismatch, 2, 21, 20⟩ ∧
    decodeBytes f7 = .failed ⟨.crcMismatch, 18, 0x5A46, 0x5A47⟩ ∧
    decodeBytes (frameBytes 0x10 f6Operands) = .failed ⟨.truncatedPayload, 10, 8, 7⟩ ∧
    decodeBytes [0x1A, 0xCF, 0x0C, 0x10, 0, 1, 0, 0, 0, 0, 0x98, 0xAA] = .failed ⟨.truncatedPayload, 10, 8, 0⟩ ∧
    decodeBytes f5 = .failed ⟨.unknownType, 3, 0, 0x30⟩ ∧
    decodeBytes [0x1A, 0xCF, 0x0C, 0, 0, 0, 0, 0, 0, 0, 0x89, 0xD2] = .failed ⟨.unknownType, 3, 0, 0⟩ := by
  decide +kernel
/-- F1 cut at offsets 0, 1, 2, 3 and 19, the byte there and another one. -/
theorem witness_Corruption :
    (f1 = [] ++ 0x1A :: f1.drop 1 ∧ f1 = [0x1A] ++ 0xCF :: f1.drop 2 ∧ f1 = [0x1A, 0xCF] ++ 0x14 :: f1.drop 3 ∧
      f1 = [0x1A, 0xCF, 0x14] ++ 0x10 :: f1.drop 4 ∧ f1 = f1.take 19 ++ 0x46 :: []) ∧
    decodeBytes f1 = .frame ⟨1, 1700000000, f1, hexLower f1, .housekeeping ⟨13800, 22, 28, 512⟩⟩ ∧
    (0x1A : Byte) ≠ 0x1B ∧ (0xCF : Byte) ≠ 0xCE ∧ (0x14 : Byte) ≠ 0x15 ∧ (0x10 : Byte) ≠ 0x20 ∧ (0x46 : Byte) ≠ 0x47 := by
  decide +kernel
/-- The bounds of the field values and of the payload lengths. -/
theorem witness_RoundTrip :
    ((-128 : Int) ≤ -128 ∧ (-128 : Int) ≤ 127) ∧ ((-128 : Int) ≤ 127 ∧ (127 : Int) ≤ 127) ∧
    ([] : List Byte).length ≤ 243 ∧ (List.replicate 243 (0xFF : Byte)).length ≤ 243 ∧
    (List.replicate 235 (0xFF : Byte)).length ≤ 235 := by decide +kernel
/-- F14: two extra payload bytes. -/
theorem witness_Extra :
    ([0xAA, 0xBB] : List Byte).length ≤ 235 ∧
    encode (.hk (validOperands 0x10 1 1700000000 (hkPayload 13800 22 28 512 ++ [0xAA, 0xBB]))) =
      .datagram (0x1A :: 0xCF :: 0x16 :: (f1.drop 3).take 15 ++ [0xAA, 0xBB, 0x8A, 0x29]) := by decide +kernel
/-- One entry for each selector, and each operator at its boundary. -/
theorem witness_RuleFires :
    let h : HkFields := ⟨12000, -20, 41, 70000⟩
    (ruleFires h ⟨2, 0, 1, 12000, 0⟩ = false ∧ ruleFires h ⟨2, 0, 1, 12001, 0⟩ = true) ∧
    (ruleFires h ⟨1, 1, 3, BitVec.ofInt 32 (-20), 0⟩ = true ∧ ruleFires h ⟨1, 1, 0, BitVec.ofInt 32 (-20), 0⟩ = false) ∧
    (ruleFires h ⟨1, 2, 0, 40, 0⟩ = true ∧ ruleFires h ⟨1, 2, 0, 41, 0⟩ = false) ∧
    (ruleFires h ⟨2, 3, 2, 70000, 0⟩ = true ∧ ruleFires h ⟨2, 3, 4, 70000, 0⟩ = true ∧
      ruleFires h ⟨2, 3, 5, 70000, 0⟩ = false) ∧
    4 ≤ (4 : BitVec 3).toNat ∧ ruleFires h ⟨2, 4, 5, 0, 0⟩ = false := by decide +kernel
/-- A table that is built, and one that is refused for each of the four conditions. -/
theorem witness_Tables :
    (buildRules []).isSome = true ∧ (buildRules [redRule, yellowRule]).isSome = true ∧
    (buildRules [{ redRule with level := 3 }]).isSome = false ∧ (buildRules [{ redRule with op := 6 }]).isSome = false ∧
    (buildRules [yellowRule, redRule]).isSome = false ∧ (buildRules [{ redRule with thr := 256 }]).isSome = false := by
  decide +kernel
/-- A frame with both alerts. -/
theorem witness_RedFirst :
    (⟨1, 2, 52, 0, 7, 1700000060, 1700000060⟩ : Alert) ∈
      evaluateHk defaultRules 7 1700000060 ⟨10800, -5, 52, 70000⟩ := by decide +kernel
/-- The three cases of the alert views. -/
theorem witness_AlertViews :
    State.reset.rvalid = false ∧
    ((ended f3).rvalid = true ∧ (ended f3).res ≠ .okHk) ∧ ((ended f7).rvalid = true ∧ (ended f7).res ≠ .okHk) ∧
    ((ended f2).rvalid = true ∧ (ended f2).res = .okHk ∧ 1 < defaultRules.entries.length) := by decide +kernel
/-- BYTE: RECV at COUNT 0, 1, 2, 254, 255, 65534 and 65535; and IDLE. -/
theorem witness_Byte :
    (∀ n ∈ [0, 1, 2, 254, 255, 65534, 65535], (atCount n).phase = .recv ∧ (atCount n).count.toNat = n) ∧
    State.reset.phase = .idle := by decide +kernel
/-- END: RECV, with the byte counts where its checks meet, and IDLE. -/
theorem witness_End :
    ((receiving []).phase = .recv ∧ (receiving []).count = 0) ∧
    ((receiving (f4.take 11)).phase = .recv ∧ (receiving (f4.take 11)).count = 11) ∧
    ((receiving f4).phase = .recv ∧ (receiving f4).count = 12) ∧ (receiving f1).phase = .recv ∧
    (receiving f5).phase = .recv ∧ (receiving f7).phase = .recv ∧ (receiving (frameBytes 0x10 f6Operands)).phase = .recv ∧
    State.reset.phase = .idle := by decide +kernel
/-- A misuse, a use, and a RESET event. -/
theorem witness_Perr :
    exec (.byte 1) State.reset = .next { State.reset with perr := true } ∧
    exec (.nop 1) State.reset = .next State.reset ∧ (presented [.rst]).port = .rst :: [] := ⟨rfl, rfl, rfl⟩
theorem witness_Received :
    OpensDgram [0x1A, 0xCF] [.nop 0, .start 1, .byte 0x1A, .nop 2, .byte 0xCF] ∧ ([0x1A, 0xCF] : List Byte).length < 65535 :=
  ⟨⟨1, rfl⟩, by decide⟩
theorem witness_Dgram :
    IsDgram [0x1A, 0xCF] [.nop 0, .start 1, .byte 0x1A, .nop 2, .byte 0xCF, .end_ 3] ∧ IsDgram [] [.start 0, .end_ 0] ∧
    IsDgram [0x1A, 0xCF] [.start 9, .byte 0x1A, .byte 0xCF, .end_ 0] := ⟨⟨1, 3, rfl⟩, ⟨0, 0, rfl⟩, ⟨9, 0, rfl⟩⟩
/-- A well-formed HK with 8 payload bytes and with 10 (F14), a well-formed PD with 5 and with none. -/
theorem witness_Accepted :
    (Instr.hk f1Operands).wf = true ∧
    (Instr.hk ⟨0x16, 1, 1700000000, [0x35, 0xE8, 0x16, 0x1C, 0, 0, 2, 0, 0xAA, 0xBB], 0x8A29⟩).wf = true ∧
    (Instr.pd f3Operands).wf = true ∧ (Instr.pd ⟨0x0C, 0xFFFF, 0xFFFFFFFF, [], 0xAB20⟩).wf = true := by decide +kernel
/-- One instruction for each failure clause. -/
theorem witness_Raise :
    ({ f1Operands with len := 0x15 } : FrameOperands).len.toNat ≠ 12 + f1Operands.payload.length ∧
    (f1Operands.len.toNat = 12 + f1Operands.payload.length ∧ (0x5A47 : BitVec 16) ≠ checksum (frameBody 0x10 f1Operands)) ∧
    (f3Operands.len.toNat = 12 + f3Operands.payload.length ∧ (0xF1D5 : BitVec 16) ≠ checksum (frameBody 0x20 f3Operands)) ∧
    (f6Operands.len.toNat = 12 + f6Operands.payload.length ∧ f6Operands.chk = checksum (frameBody 0x10 f6Operands) ∧
      f6Operands.payload.length < 8) := by decide +kernel
/-- Both instructions, an address inside the datagram and one outside it. -/
theorem witness_Store :
    (Instr.hk f1Operands = .hk f1Operands ∧ (0x10 : Byte) = 0x10 ∧ 19 < (frameBytes 0x10 f1Operands).length ∧
      (frameBytes 0x10 f1Operands).length ≤ 20) ∧
    (Instr.pd f3Operands = .pd f3Operands ∧ (0x20 : Byte) = 0x20 ∧ 16 < (frameBytes 0x20 f3Operands).length) := by
  decide +kernel
theorem witness_ItsDgram : encode (.hk f1Operands) = .datagram f1 ∧ encode (.pd f3Operands) = .datagram f3 := by
  decide +kernel
/-- States where the views have no value, and states where they have one. -/
theorem witness_Views :
    (State.reset.res ≠ .okHk ∧ State.reset.res ≠ .okPd) ∧ (ended f7).res = .fail ∧
    ((ended f3).res ≠ .okHk ∧ (ended f3).viewSatid = some 2) ∧ ((ended f1).res ≠ .okPd ∧ (ended f1).viewBv = some 13800) ∧
    State.reset.rvalid = false ∧ (defaultRules.size = 2 ∧ (ended f2).viewFire defaultRules 1 = some true) ∧
    ((ended f2).viewAlertCount defaultRules = some 2 ∧
      (ended f2).viewAlert defaultRules 1 = some ⟨2, 0, 10800, 1, 7, 1700000060, 1700000060⟩) := by decide +kernel
/-- MemRead up to the last byte, past it, and without a Frame. -/
theorem witness_MemRead :
    ((ended f4).res = .okPd ∧ 2 + 10 ≤ (ended f4).count.toNat ∧ (ended f4).memRead 10 2 = some [0xAB, 0x20]) ∧
    (ended f4).memRead 10 3 = none ∧ (ended f7).memRead 0 1 = none := by decide +kernel
theorem witness_Step :
    (presented [.word 0x21A]).port = .word 0x21A :: [] ∧ decodeItem (.word 0x21A) = .instr (.byte 0x1A) ∧
    (presented [.datagram f1, .rst]).port = .datagram f1 :: [.rst] ∧
    decodeItem (.datagram f1) = .instr (.hk f1Operands) := by decide +kernel
/-- A datagram of the table, and one that is none. -/
theorem witness_Every :
    (presented [.datagram f1]).port = .datagram f1 :: [] ∧ (presented [.datagram []]).port = .datagram [] :: [] := by
  decide +kernel
/-- A text that TF rejects and one that it hands on and that is a Frame. -/
theorem witness_Text :
    (presented [.text [0x7A, 0x7A]]).port = .text [0x7A, 0x7A] :: [] ∧
    textToBytes [0x7A, 0x7A] = .failed ⟨.invalidHexChars, 0, 0, 0x7A⟩ ∧
    textToBytes (hexLower f4) = .bytes (hexLower f4) f4 ∧
    decodeText (hexLower f4) = .frame ⟨0xFFFF, 0xFFFFFFFF, f4, hexLower f4, .payloadData [] [] 0⟩ := by decide +kernel
/-- Each case of the byte port: a command word, a datagram, a text that is handed on ("1a"); RESET, a text that fails in TF
("zz") and nothing at all, whatever stands behind them. -/
theorem witness_Transfers :
    ((presented [.word 0x21A]).transfer = true ∧ (presented [.word 0x21A]).inWord = some 0x21A) ∧
    ((presented [.datagram [0x1A]]).transfer = true ∧
      (presented [.datagram [0x1A]]).presentedWords = [0x100, 0x21A, 0x300]) ∧
    ((presented [.text [0x31, 0x61]]).transfer = true ∧
      (presented [.text [0x31, 0x61]]).presentedWords = [0x100, 0x21A, 0x300]) ∧
    ((presented [.rst, .word 0x100]).transfer = false ∧ (presented [.rst, .word 0x100]).rstInput = true) ∧
    ((presented [.text [0x7A, 0x7A], .word 0x100]).transfer = false ∧
      (presented [.text [0x7A, 0x7A], .word 0x100]).rstInput = false) ∧
    State.reset.inValid = false := by decide +kernel
theorem witness_Reset :
    (presented [.rst, .word 0x100]).port = .rst :: [.word 0x100] ∧ (presented [.rst]).port = .rst :: [] := ⟨rfl, rfl⟩
/-- `done` pulses at an END that ends a datagram, at one out of place, in a datagram and in a text that is handed on (the text
"1a"), not at RESET, at a BYTE, or at a text that fails in TF ("zz"); RVALID goes from 0 to 1 on the first. -/
theorem witness_Done :
    State.reset.donePulse = false ∧
    (((receiving [0x1A]).withPort [.word 0x300]).donePulse = true ∧ (receiving [0x1A]).rvalid = false ∧
      (nextOf (step ((receiving [0x1A]).withPort [.word 0x300]))).map State.rvalid = some true) ∧
    ((presented [.word 0x300]).donePulse = true ∧ (presented [.word 0x300]).phase = .idle ∧
      (nextOf (step (presented [.word 0x300]))).map State.rvalid = some false) ∧
    (presented [.datagram [0x00]]).donePulse = true ∧ (presented [.text [0x31, 0x61]]).donePulse = true ∧
    (presented [.rst]).donePulse = false ∧ (presented [.word 0x21A]).donePulse = false ∧
    (presented [.text [0x7A, 0x7A]]).donePulse = false := by decide +kernel
/-- P1's fourteen command words on the port. -/
theorem witness_Finish :
    (presented (onPort (.start 0 :: (f4.map Instr.byte ++ [.end_ 0])))).port =
      (Instr.start 0 :: (f4.map Instr.byte ++ [.end_ 0])).map encode ++ [] ∧
    onPort (.start 0 :: (f4.map Instr.byte ++ [.end_ 0])) =
      [0x100, 0x21A, 0x2CF, 0x20C, 0x220, 0x2FF, 0x2FF, 0x2FF, 0x2FF, 0x2FF, 0x2FF, 0x2AB, 0x220, 0x300].map PortItem.word ∧
    1 ≤ 1 ∧ 1 ≤ f4.length + 1 ∧ 13 ≤ f4.length + 1 := by decide +kernel

/-- A state in RECV that has the invariant. -/
theorem inv_open : Inv (startCommand State.reset) :=
  ⟨by decide, [], (startCommand_holds _).1, fun t h => by simp at h, fun _ => (startCommand_holds _).2,
    fun h => by simp at h⟩
/-- A state after a datagram that has the invariant. -/
theorem inv_ended (bs : List Byte) : Inv (ended bs) := by
  obtain ⟨hh, ho, hp, -, hr, -, -, -, -, hw⟩ := presentDatagram_spec bs State.reset
  exact ⟨hw test_reset_memory, bs, hh, fun t h => (by rw [ended, hr] at h; cases h),
    fun h => (by rw [ended, hp] at h; cases h), fun _ => .inr ho⟩
theorem inv_withPort (s : State) (p : List PortItem) (h : Inv s) : Inv (s.withPort p) := h
theorem step_of_rst (s : State) : step (s.withPort [.rst]) = .next (s.withPort []).resetEvent := rfl
/-- States with the invariant, a step from one, an instruction from one, and a Frame that shows. -/
theorem witness_Invariant :
    (Inv ((ended f4).withPort [.rst]) ∧ ∃ t, step ((ended f4).withPort [.rst]) = .next t) ∧
    (Inv (startCommand State.reset) ∧ ∃ t, exec (.byte 1) (startCommand State.reset) = .next t) ∧
    (Inv (ended f4) ∧
      (ended f4).viewFrame = some ⟨0xFFFF, 0xFFFFFFFF, f4, hexLower f4, .payloadData [] [] 0⟩) :=
  ⟨⟨inv_withPort _ _ (inv_ended f4), _, step_of_rst _⟩, ⟨inv_open, _, exec_byte _ _⟩, inv_ended f4, by decide +kernel⟩

end Sys2Proof.Tests
end

section
/-! SUPPORT. The laws of the views: a view has its value under its condition and none outside it, and the alert views by the
entries of the rule table (10_state.md R38 to R43, 20_memory.md R62). -/

namespace Sys2Proof.Proofs

open Sys2Proof.Machine Sys2Proof.Safety

@[simp] theorem viewIf_true {α : Type} (v : α) : viewIf true v = some v := rfl
@[simp] theorem viewIf_false {α : Type} (v : α) : viewIf false v = none := rfl

theorem hasFrame_eq_false (s : State) (hk : s.res ≠ .okHk) (hp : s.res ≠ .okPd) : s.hasFrame = false := by
  simp [State.hasFrame, hk, hp]

theorem isHk_eq_true (s : State) (h : s.res = .okHk) : s.isHk = true := by
  simp [State.isHk, h]

theorem isHk_eq_false (s : State) (h : s.res ≠ .okHk) : s.isHk = false := by
  simp [State.isHk, h]

/-- Without a Frame there is no Frame view and no MemRead (10_state.md R38, 20_memory.md R62). -/
theorem noFrameViews_of_hasFrame_false (s : State) (h : s.hasFrame = false) : NoFrameViews s := by
  simp [NoFrameViews, State.viewN, State.viewKind, State.viewSatid, State.viewTs, State.viewPlen, State.viewPayload,
    State.viewRaw, State.viewRawHex, State.viewFrame, State.memRead, h]

theorem viewFrame_eq_none (s : State) (hk : s.res ≠ .okHk) (hp : s.res ≠ .okPd) : s.viewFrame = none := by
  rw [State.viewFrame, hasFrame_eq_false s hk hp, viewIf_false]

theorem noHkViews_of_res_ne (s : State) (h : s.res ≠ .okHk) : NoHkViews s := by
  simp [NoHkViews, State.viewBv, State.viewBt, State.viewMsi, State.viewSsr, isHk_eq_false s h]

theorem noPdViews_of_res_ne (s : State) (h : s.res ≠ .okPd) : NoPdViews s := by
  have hpd : (s.res == .okPd) = false := beq_eq_false_iff_ne.mpr h
  simp [NoPdViews, State.viewPayloadLength, State.viewPayloadHex, hpd]

/-- FIRE[i] through the entry it belongs to. -/
theorem viewFire_eq_bind (rules : RuleTable) (s : State) (i : Nat) :
    s.viewFire rules i = rules.entries[i]?.bind (fun e => viewIf s.rvalid (s.isHk && ruleFires s.hkFields e)) := by
  rw [State.viewFire]
  cases rules.entries[i]? <;> rfl

theorem viewFire_eq_none_of_size_le (rules : RuleTable) (s : State) (i : Nat) (h : rules.size ≤ i) :
    s.viewFire rules i = none := by
  rw [viewFire_eq_bind, List.getElem?_eq_none h, Option.bind_none]

/-- FIRE[i] of a complete datagram, for an entry of the table (10_state.md R43). -/
theorem viewFire_of_rvalid (rules : RuleTable) (s : State) (hv : s.rvalid = true) (i : Nat) (hi : i < rules.size) :
    s.viewFire rules i = some (s.isHk && ruleFires s.hkFields (rules.entries[i]'hi)) := by
  rw [viewFire_eq_bind, List.getElem?_eq_getElem hi, hv]
  rfl

theorem viewAlertCount_of_viewAlerts (rules : RuleTable) (s : State) (as : List Alert) (h : s.viewAlerts rules = some as) :
    s.viewAlertCount rules = some as.length := by
  rw [State.viewAlertCount, h, Option.map_some]

theorem viewAlert_of_viewAlerts (rules : RuleTable) (s : State) (as : List Alert) (h : s.viewAlerts rules = some as)
    (k : Nat) : s.viewAlert rules k = as[k]? := by
  rw [State.viewAlert, h, Option.bind_some]

/-- ALERT[k] has no value from ALERT_COUNT on (10_state.md R43). -/
theorem viewAlert_eq_none_of_count_le (rules : RuleTable) (s : State) (n k : Nat) (hn : s.viewAlertCount rules = some n)
    (hk : n ≤ k) : s.viewAlert rules k = none := by
  cases ha : s.viewAlerts rules with
  | none => rw [State.viewAlert, ha, Option.bind_none]
  | some as =>
    rw [viewAlertCount_of_viewAlerts rules s as ha, Option.some.injEq] at hn
    rw [viewAlert_of_viewAlerts rules s as ha, List.getElem?_eq_none (hn.trans_le hk)]

theorem viewAlerts_of_rvalid_false (rules : RuleTable) (s : State) (h : s.rvalid = false) : s.viewAlerts rules = none := by
  rw [State.viewAlerts, h, viewIf_false]

theorem viewAlerts_of_res_ne (rules : RuleTable) (s : State) (hv : s.rvalid = true) (h : s.res ≠ .okHk) :
    s.viewAlerts rules = some [] := by
  rw [State.viewAlerts, hv, isHk_eq_false s h]
  rfl

theorem viewAlerts_of_okHk (rules : RuleTable) (s : State) (hv : s.rvalid = true) (h : s.res = .okHk) :
    s.viewAlerts rules = some (evaluateHk rules (s.fbBe16 4) (s.fbBe32 6) s.hkFields) := by
  rw [State.viewAlerts, hv, isHk_eq_true s h]
  rfl

/-- While RVALID is 0 no alert view has a value (10_state.md R43; log 9 for FIRE). -/
theorem noAlertViews_of_rvalid_false (s : State) (h : s.rvalid = false) : NoAlertViews s := by
  intro rules
  have ha := viewAlerts_of_rvalid_false rules s h
  refine ⟨ha, by rw [State.viewAlertCount, ha, Option.map_none], fun k => by rw [State.viewAlert, ha, Option.bind_none],
    fun i => ?_⟩
  rw [viewFire_eq_bind, h]
  cases rules.entries[i]? <;> rfl

/-- One alert for each entry that fires. -/
theorem evaluateHk_length (rules : RuleTable) (satid : BitVec 16) (ts : BitVec 32) (h : HkFields) :
    (evaluateHk rules satid ts h).length = rules.entries.countP (ruleFires h) := by
  rw [evaluateHk, List.length_map, ← List.countP_eq_length_filter]

/-- Counting over the indices of a list is counting over its elements. -/
theorem countP_range_getElem? {α : Type} (l : List α) (p : Option α → Bool) :
    (List.range l.length).countP (fun i => p l[i]?) = l.countP (fun a => p (some a)) := by
  have hmap : (List.range l.length).map (fun i => l[i]?) = l.map some := by
    apply List.ext_getElem <;> simp
  calc (List.range l.length).countP (fun i => p l[i]?)
      = ((List.range l.length).map (fun i => l[i]?)).countP p := List.countP_map.symm
    _ = l.countP (fun a => p (some a)) := by rw [hmap, List.countP_map]; rfl

/-- The FIRE bits that are 1 number the entries that fire. -/
theorem countP_viewFire (rules : RuleTable) (s : State) (hv : s.rvalid = true) (h : s.res = .okHk) :
    (List.range rules.size).countP (fun i => s.viewFire rules i == some true) =
      rules.entries.countP (ruleFires s.hkFields) := by
  simp only [viewFire_eq_bind, hv, isHk_eq_true s h, viewIf_true, Bool.true_and]
  rw [RuleTable.size, countP_range_getElem? rules.entries
    (fun o => o.bind (fun e => some (ruleFires s.hkFields e)) == some true)]
  simp

end Sys2Proof.Proofs
end

section
/-! SUPPORT. What acceptance by `decode_bytes` says of the bytes (42_frame_decoder.md R160 to R173), and what TF hands on
(41_text_front_end.md R147). -/

namespace Sys2Proof.Proofs

open Sys2Proof.Machine

/-- The two Frames that the dispatch on the type byte can answer. -/
theorem decodeByType_eq_frame (bs : List Byte) (f : Frame) (h : decodeByType bs = .frame f) :
    (20 ≤ bs.length ∧ f = frameOf bs (.housekeeping (hkFieldsOf bs))) ∨
    f = frameOf bs (.payloadData (payloadOf bs) (hexLower (payloadOf bs)) (bs.length - 12)) := by
  unfold decodeByType at h
  split at h
  · unfold decodeHk at h
    split at h
    · cases h
    · rename_i hlen
      cases h
      simp only [Config.hkMinPayload] at hlen
      exact .inl ⟨by omega, rfl⟩
  · split at h
    · cases h; exact .inr rfl
    · cases h

/-- A datagram that is accepted has passed both length checks and the dispatch: LEN is a byte, so N is at most 255. -/
theorem decodeBytes_eq_frame (bs : List Byte) (f : Frame) (h : decodeBytes bs = .frame f) :
    12 ≤ bs.length ∧ bs.length ≤ 255 ∧ decodeByType bs = .frame f := by
  have hlt := (byteAt bs 2).isLt
  simp only [decodeBytes, Config.minLen] at h
  split_ifs at h with hzero hmin hsync hlen hdecl hchk
  exact ⟨by omega, by omega, h⟩

theorem hexToBytes_eq_bytes (t u : Text) (bs : List Byte) (h : hexToBytes t = .bytes u bs) : u = t := by
  unfold hexToBytes at h
  split at h <;> cases h
  rfl

/-- The text TF hands on is normalised already: its bytes are read from it as it stands. -/
theorem hexToBytes_of_textToBytes (t u : Text) (bs : List Byte) (h : textToBytes t = .bytes u bs) :
    hexToBytes u = .bytes u bs := by
  simp only [textToBytes] at h
  split at h
  · cases h
  split at h
  · cases h
  · rwa [← hexToBytes_eq_bytes _ _ _ h] at h

end Sys2Proof.Proofs
end

section
/-! SUPPORT. The views of a state that holds an accepted datagram (10_state.md R39 to R42). -/

namespace Sys2Proof.Proofs

open Sys2Proof.Machine Sys2Proof.Safety Sys2Proof.Laws

theorem fbBe16_of_holds (s : State) (bs : List Byte) (h : HoldsBytes s bs) (hmax : bs.length ≤ 255) (a : Nat)
    (ha : a + 1 < bs.length) : s.fbBe16 a = be16At bs a := by
  rw [State.fbBe16, be16At, fbByte_of_holds s bs h a (by omega) (by omega), fbByte_of_holds s bs h (a + 1) ha (by omega)]

theorem fbBe32_eq (s : State) (a : Nat) : s.fbBe32 a = s.fbBe16 a ++ s.fbBe16 (a + 2) := rfl

theorem be32At_eq (bs : List Byte) (a : Nat) : be32At bs a = be16At bs a ++ be16At bs (a + 2) := rfl

theorem fbBe32_of_holds (s : State) (bs : List Byte) (h : HoldsBytes s bs) (hmax : bs.length ≤ 255) (a : Nat)
    (ha : a + 3 < bs.length) : s.fbBe32 a = be32At bs a := by
  rw [fbBe32_eq, be32At_eq, fbBe16_of_holds s bs h hmax a (by omega), fbBe16_of_holds s bs h hmax (a + 2) (by omega)]

theorem fbRange_of_holds (s : State) (bs : List Byte) (h : HoldsBytes s bs) (hmax : bs.length ≤ 255) (a n : Nat)
    (ha : a + n ≤ bs.length) : s.fbRange a n = slice bs a (a + n) := by
  rw [fbRange_eq s bs a n ha fun i hi => fbByte_of_holds s bs h i (by omega) (by omega), slice, List.take_drop]

theorem count_of_holds (s : State) (bs : List Byte) (h : HoldsBytes s bs) (hmax : bs.length ≤ 255) :
    s.count.toNat = bs.length :=
  h.1.trans (by omega)

/-- RAW is the whole datagram. -/
theorem fbRange_raw_of_holds (s : State) (bs : List Byte) (h : HoldsBytes s bs) (hmax : bs.length ≤ 255) :
    s.fbRange 0 s.count.toNat = bs := by
  rw [count_of_holds s bs h hmax, fbRange_of_holds s bs h hmax 0 bs.length (by omega), slice, Nat.zero_add, List.take_length,
    List.drop_zero]

theorem fbRange_payload_of_holds (s : State) (bs : List Byte) (h : HoldsBytes s bs) (hmin : 12 ≤ bs.length)
    (hmax : bs.length ≤ 255) : s.fbRange 10 (s.count.toNat - 12) = payloadOf bs := by
  rw [count_of_holds s bs h hmax, fbRange_of_holds s bs h hmax 10 (bs.length - 12) (by omega), payloadOf,
    show 10 + (bs.length - 12) = bs.length - 2 by omega]

theorem hkFields_of_holds (s : State) (bs : List Byte) (h : HoldsBytes s bs) (hmin : 20 ≤ bs.length)
    (hmax : bs.length ≤ 255) : s.hkFields = hkFieldsOf bs := by
  rw [State.hkFields, hkFieldsOf, fbBe16_of_holds s bs h hmax 10 (by omega), fbBe32_of_holds s bs h hmax 14 (by omega),
    fbByte_of_holds s bs h 12 (by omega) (by omega), fbByte_of_holds s bs h 13 (by omega) (by omega)]

theorem frameBody_of_okHk (s : State) (h : s.res = .okHk) : s.frameBody = .housekeeping s.hkFields := by
  rw [State.frameBody, isHk_eq_true s h, if_pos rfl]

theorem frameBody_of_okPd (s : State) (h : s.res = .okPd) :
    s.frameBody = .payloadData (s.fbRange 10 (s.count.toNat - 12)) (hexLower (s.fbRange 10 (s.count.toNat - 12)))
      (s.count.toNat - 12) := by
  rw [State.frameBody, isHk_eq_false s (by simp [h]), if_neg (by simp)]

/-- A Frame exists, and the variant that shows is the variant `decode_bytes` gave. -/
theorem frameBody_of_accepted (s : State) (bs : List Byte) (f : Frame) (h : HoldsBytes s bs) (hd : decodeBytes bs = .frame f)
    (ho : HasOutcome s (.frame f)) : s.hasFrame = true ∧ f = frameOf bs s.frameBody := by
  obtain ⟨hmin, hmax, hty⟩ := decodeBytes_eq_frame bs f hd
  obtain ⟨-, -, -, -, -, hres⟩ := ho
  rcases decodeByType_eq_frame bs f hty with ⟨h20, rfl⟩ | rfl
  · have hhk : s.res = .okHk := hres
    exact ⟨by simp [State.hasFrame, hhk], by rw [frameBody_of_okHk s hhk, hkFields_of_holds s bs h h20 hmax]⟩
  · have hpd : s.res = .okPd := hres
    refine ⟨by simp [State.hasFrame, hpd], ?_⟩
    rw [frameBody_of_okPd s hpd, fbRange_payload_of_holds s bs h hmin hmax, count_of_holds s bs h hmax]

/-- The Frame that shows after an accepted datagram is the one `decode_bytes` gives, but for `raw_hex` of a kept text
(10_state.md R40). -/
theorem viewFrame_of_accepted (s : State) (bs : List Byte) (f : Frame) (h : HoldsBytes s bs) (hd : decodeBytes bs = .frame f)
    (ho : HasOutcome s (.frame f)) : s.viewFrame = some { f with rawHex := s.rawText.getD (hexLower bs) } := by
  obtain ⟨hmin, hmax, -⟩ := decodeBytes_eq_frame bs f hd
  obtain ⟨hframe, hf⟩ := frameBody_of_accepted s bs f h hd ho
  rw [State.viewFrame, hframe, viewIf_true, fbRange_raw_of_holds s bs h hmax, fbBe16_of_holds s bs h hmax 4 (by omega),
    fbBe32_of_holds s bs h hmax 6 (by omega), hf]
  rfl

/-- The Frame that `decode_bytes` gives keeps its bytes and their rendering. -/
theorem frame_raw_of_accepted (bs : List Byte) (f : Frame) (hd : decodeBytes bs = .frame f) :
    f.raw = bs ∧ f.rawHex = hexLower bs := by
  obtain ⟨-, -, hty⟩ := decodeBytes_eq_frame bs f hd
  rcases decodeByType_eq_frame bs f hty with ⟨-, rfl⟩ | rfl <;> exact ⟨rfl, rfl⟩

end Sys2Proof.Proofs
end

section
/-! SUPPORT. The invariant of the machine: how it is built in each STATE, what it says, and that every command, every
datagram, every text and RESET keeps it (10_state.md R25 to R28, 44_stream_commands.md R216, R218). -/

namespace Sys2Proof.Proofs

open Sys2Proof.Machine Sys2Proof.Safety Sys2Proof.Laws

/-- The invariant while a datagram is open. -/
theorem inv_of_recv (s : State) (bs : List Byte) (hp : s.phase = .recv) (hw : s.fb.wf) (hh : HoldsBytes s bs)
    (hr : s.rawText = none) (hn : NoOutcome s) : Inv s :=
  ⟨hw, bs, hh, by simp [hr], fun _ => hn, by simp [hp]⟩

/-- The invariant once a datagram has ended. -/
theorem inv_of_outcome (s : State) (bs : List Byte) (hp : s.phase = .idle) (hw : s.fb.wf) (hh : HoldsBytes s bs)
    (hr : ∀ t, s.rawText = some t → hexToBytes t = .bytes t bs) (ho : HasOutcome s (decodeBytes bs)) : Inv s :=
  ⟨hw, bs, hh, fun t ht => ⟨hp, hr t ht⟩, by simp [hp], fun _ => .inr ho⟩

/-- The invariant with no datagram since a RESET. -/
theorem inv_of_no_datagram (s : State) (hp : s.phase = .idle) (hw : s.fb.wf) (hh : HoldsBytes s []) (hr : s.rawText = none)
    (hn : NoOutcome s) : Inv s :=
  ⟨hw, [], hh, by simp [hr], by simp [hp], fun _ => .inl ⟨rfl, hn⟩⟩

/-- What the invariant says of an open datagram: no text is kept, since a text is taken whole. -/
theorem recv_of_inv (s : State) (h : Inv s) (hp : s.phase = .recv) :
    s.fb.wf ∧ s.rawText = none ∧ NoOutcome s ∧ ∃ bs, HoldsBytes s bs := by
  obtain ⟨hw, bs, hh, hr, hn, -⟩ := h
  refine ⟨hw, Option.eq_none_iff_forall_ne_some.mpr fun t ht => ?_, hn hp, bs, hh⟩
  have hidle := (hr t ht).1
  rw [hp] at hidle
  cases hidle

/-- What the invariant says of the status registers: no outcome, or that of the datagram the data registers hold. -/
theorem outcome_of_inv (s : State) (h : Inv s) :
    NoOutcome s ∨ ∃ bs, HoldsBytes s bs ∧ HasOutcome s (decodeBytes bs) := by
  obtain ⟨-, bs, hh, -, hrecv, hidle⟩ := h
  cases hp : s.phase with
  | recv => exact .inl (hrecv hp)
  | idle =>
    rcases hidle hp with ⟨-, hn⟩ | ho
    · exact .inl hn
    · exact .inr ⟨bs, hh, ho⟩

-- The invariant says nothing of PERR, of the port or of TF's report.
theorem inv_flagMisuse (s : State) (h : Inv s) : Inv s.flagMisuse := h
theorem inv_withPort (s : State) (p : List PortItem) (h : Inv s) : Inv (s.withPort p) := h
theorem inv_reportText (s : State) (x : Failure) (h : Inv s) : Inv (s.reportText x) := h

/-- END leaves the data registers and FB alone. -/
theorem settle_holds (s : State) (v : Verdict) (bs : List Byte) (h : HoldsBytes s bs) : HoldsBytes (s.settle v) bs := by
  cases v <;> exact h

/-- END writes the outcome it is given. -/
theorem settle_hasOutcome (s : State) (r : DecodeResult) : HasOutcome (s.settle (verdictOf r)) r := by
  cases r with
  | failed x => exact ⟨rfl, rfl, rfl, rfl, rfl, rfl⟩
  | frame f =>
    obtain ⟨satid, ts, raw, rawHex, body⟩ := f
    cases body <;> exact ⟨rfl, rfl, rfl, rfl, rfl, rfl⟩

theorem inv_startCommand (s : State) (h : Inv s) : Inv (startCommand s) :=
  have ⟨hh, hn⟩ := startCommand_holds s
  inv_of_recv _ [] rfl h.1 hh rfl hn

theorem inv_byteCommand (b : Byte) (s : State) (h : Inv s) : Inv (byteCommand b s) := by
  cases hp : s.phase with
  | idle =>
    rw [byteCommand_idle b s hp]
    exact inv_flagMisuse s h
  | recv =>
    rw [byteCommand_recv b s hp]
    obtain ⟨hw, hr, hn, bs, hh⟩ := recv_of_inv s h hp
    exact inv_of_recv _ (bs ++ [b]) hp (storeByte_wf s b hw) (receiveByte_holds s bs b hh) hr hn

theorem inv_endCommand (s : State) (h : Inv s) : Inv (endCommand s) := by
  cases hp : s.phase with
  | idle =>
    rw [endCommand_idle s hp]
    exact inv_flagMisuse s h
  | recv =>
    obtain ⟨hw, hr, -, bs, hh⟩ := recv_of_inv s h hp
    rw [endCommand_recv s hp, verdict_of_holds s bs hh]
    obtain ⟨fphase, -, -, -, -, -, ffb, -, -, fraw, -, -⟩ := settle_frame s (verdictOf (decodeBytes bs))
    exact inv_of_outcome _ bs fphase (ffb ▸ hw) (settle_holds s _ bs hh) (by simp [fraw, hr]) (settle_hasOutcome s _)

theorem inv_byteCommands (bs : List Byte) (s : State) (h : Inv s) : Inv (byteCommands bs s) := by
  induction bs generalizing s with
  | nil => exact h
  | cons b bs ih => exact ih _ (inv_byteCommand b s h)

/-- A datagram is START, its BYTEs and END, and each of them keeps the invariant. -/
theorem inv_presentDatagram (bs : List Byte) (s : State) (h : Inv s) : Inv (presentDatagram bs s) :=
  inv_endCommand _ (inv_byteCommands bs _ (inv_startCommand s h))

/-- Keeping a text beside a datagram leaves the status registers alone. -/
theorem presentText_hasOutcome (s : State) (t : Text) (bs : List Byte) (r : DecodeResult)
    (h : HasOutcome (presentDatagram bs s) r) : HasOutcome (s.presentText t bs) r := by
  cases r <;> exact h

/-- A text that TF hands on is the datagram of its bytes, with the text kept beside it (10_state.md R40). -/
theorem inv_presentText (s : State) (t : Text) (bs : List Byte) (h : Inv s) (ht : hexToBytes t = .bytes t bs) :
    Inv (s.presentText t bs) := by
  obtain ⟨hh, ho, hp, -, -, -, -, -, -, hw⟩ := presentDatagram_spec bs s
  refine inv_of_outcome _ bs hp (hw h.1) hh ?_ (presentText_hasOutcome s t bs _ ho)
  rintro u ⟨⟩
  exact ht

theorem inv_takeText (t : Text) (s : State) (h : Inv s) : Inv (takeText t s) := by
  unfold takeText
  split
  · exact inv_reportText s _ h
  · rename_i u bs ht
    exact inv_presentText s u bs h (hexToBytes_of_textToBytes t u bs ht)

theorem inv_reset : Inv State.reset :=
  inv_of_no_datagram _ rfl nil_wf ⟨rfl, rfl, rfl, rfl, by simp⟩ rfl ⟨rfl, rfl, rfl, rfl, rfl, rfl⟩

/-- The invariant says nothing of the two fields in which RESET leaves another state than reset. -/
theorem inv_resetEvent (s : State) : Inv s.resetEvent := inv_reset

theorem inv_exec (i : Instr) (s t : State) (h : Inv s) (he : exec i s = .next t) : Inv t := by
  cases i with
  | nop d => cases he; exact h
  | start d => cases he; exact inv_startCommand s h
  | byte b => cases he; exact inv_byteCommand b s h
  | end_ d => cases he; exact inv_endCommand s h
  | hk f => cases he; exact inv_presentDatagram _ s h
  | pd f => cases he; exact inv_presentDatagram _ s h

theorem inv_takeDatagram (bs : List Byte) (s t : State) (h : Inv s) (he : takeDatagram bs s = .next t) : Inv t := by
  unfold takeDatagram at he
  split at he
  · exact inv_exec _ s t h he
  · cases he; exact inv_presentDatagram bs s h

theorem inv_takeItem (x : PortItem) (s t : State) (h : Inv s) (he : takeItem x s = .next t) : Inv t := by
  cases x with
  | rst => cases he; exact inv_resetEvent s
  | word w => exact inv_exec _ s t h he
  | datagram bs => exact inv_takeDatagram bs s t h he
  | text txt => cases he; exact inv_takeText txt s h

theorem step_of_port_nil (s : State) (h : s.port = []) : step s = .next s := by
  rw [step, stepPort, h]

theorem step_of_port_cons (s : State) (x : PortItem) (rest : List PortItem) (h : s.port = x :: rest) :
    step s = takeItem x (s.withPort rest) := by
  rw [step, stepPort, h]

/-- What an outcome says of the status registers (10_state.md R25 to R28). -/
theorem status_of_hasOutcome (s : State) (r : DecodeResult) (h : HasOutcome s r) :
    s.rvalid = true ∧ s.res ≠ .none ∧
    (s.res ≠ .fail → s.fkind = 0 ∧ s.ctxOff = 0 ∧ s.ctxExp = 0 ∧ s.ctxAct = 0) := by
  cases r with
  | failed x =>
    obtain ⟨hv, -, -, -, -, hres⟩ := h
    exact ⟨hv, by simp [hres], fun hne => absurd hres hne⟩
  | frame f =>
    obtain ⟨hv, hk, ho, he, ha, hres⟩ := h
    refine ⟨hv, ?_, fun _ => ⟨hk, ho, he, ha⟩⟩
    rw [hres]
    cases f.body <;> simp

/-- With the outcome of the datagram the registers hold, a Frame that shows is one `decode_bytes` accepts. -/
theorem decodeBytes_of_viewFrame (s : State) (bs : List Byte) (f : Frame) (hh : HoldsBytes s bs)
    (ho : HasOutcome s (decodeBytes bs)) (hf : s.viewFrame = some f) :
    decodeBytes f.raw = .frame { f with rawHex := hexLower f.raw } := by
  cases hd : decodeBytes bs with
  | failed x =>
    rw [hd] at ho
    obtain ⟨-, -, -, -, -, hres⟩ := ho
    rw [viewFrame_eq_none s (by simp [hres]) (by simp [hres])] at hf
    cases hf
  | frame g =>
    rw [hd] at ho
    obtain ⟨rfl, hhex⟩ := frame_raw_of_accepted bs g hd
    rw [viewFrame_of_accepted s g.raw g hh hd ho] at hf
    cases hf
    rw [← hhex]
    exact hd

end Sys2Proof.Proofs
end

section
/-! The statements of the state family, settled. -/

namespace Sys2Proof.Proofs

open Sys2Proof.Machine Sys2Proof.Safety Sys2Proof.Laws

/-- Settles O54: a step with nothing presented keeps the state, any other takes the oldest input, off the port. -/
theorem stepKeepsTheInvariant : Obligations.StepKeepsTheInvariant := by
  intro s t h hs
  cases hp : s.port with
  | nil =>
    rw [step_of_port_nil s hp] at hs
    cases hs
    exact h
  | cons x rest =>
    rw [step_of_port_cons s x rest hp] at hs
    exact inv_takeItem x _ t (inv_withPort s rest h) hs

/-- Settles O55, by the arms of `exec`. -/
theorem instructionsKeepTheInvariant : Obligations.InstructionsKeepTheInvariant :=
  inv_exec

/-- Settles O56: nothing is listed in FB, and the registers hold the empty datagram without an outcome. -/
theorem resetHasTheInvariant : Obligations.ResetHasTheInvariant :=
  inv_reset

/-- Settles O57: without an outcome nothing shows; with one, the Frame that shows is the one `decode_bytes` gave. -/
theorem aShownFrameIsValid : Obligations.AShownFrameIsValid := by
  intro s h
  rcases outcome_of_inv s h with hn | ⟨bs, hh, ho⟩
  · obtain ⟨hv, hres, hctx⟩ := hn
    have hview := viewFrame_eq_none s (by simp [hres]) (by simp [hres])
    exact ⟨by simp [hv, hres], fun _ => hctx, by simp [hview]⟩
  · obtain ⟨hv, hres, hctx⟩ := status_of_hasOutcome s _ ho
    exact ⟨iff_of_true hv hres, hctx, fun f hf => decodeBytes_of_viewFrame s bs f hh ho hf⟩

/-- Settles O29: the list decides ALERT[k] and ALERT_COUNT, and the count over the FIRE bits is the count over the entries. -/
theorem alertViewsFollowTheResult : Obligations.AlertViewsFollowTheResult := by
  intro rules s
  refine ⟨noAlertViews_of_rvalid_false s, fun hv hres => ?_, fun hv hres => ?_⟩
  · have ha := viewAlerts_of_res_ne rules s hv hres
    refine ⟨ha, viewAlertCount_of_viewAlerts rules s [] ha, viewAlert_of_viewAlerts rules s [] ha, fun i hi => ?_⟩
    rw [viewFire_of_rvalid rules s hv i hi, isHk_eq_false s hres, Bool.false_and]
  · have ha := viewAlerts_of_okHk rules s hv hres
    refine ⟨fun i hi => ?_, ha, viewAlert_of_viewAlerts rules s _ ha, ?_⟩
    · rw [viewFire_of_rvalid rules s hv i hi, isHk_eq_true s hres, Bool.true_and]
      rfl
    · rw [viewAlertCount_of_viewAlerts rules s _ ha, evaluateHk_length, countP_viewFire rules s hv hres]

/-- Settles O46, view group by view group. -/
theorem viewsOutsideTheirConditionAreRefused : Obligations.ViewsOutsideTheirConditionAreRefused := fun s =>
  ⟨fun hk hp => noFrameViews_of_hasFrame_false s (hasFrame_eq_false s hk hp), noHkViews_of_res_ne s, noPdViews_of_res_ne s,
    noAlertViews_of_rvalid_false s,
    fun rules => ⟨viewFire_eq_none_of_size_le rules s, viewAlert_eq_none_of_count_le rules s⟩⟩

/-- Settles O52: the step is RESET's, and with RES NONE and RVALID 0 no view has a value. -/
theorem resetEventGivesTheResetTable : Obligations.ResetEventGivesTheResetTable := by
  intro s rest hp
  have hk : (s.withPort rest).resetEvent.res ≠ .okHk := by simp
  have hpd : (s.withPort rest).resetEvent.res ≠ .okPd := by simp
  exact ⟨(s.withPort rest).resetEvent, step_of_port_cons s .rst rest hp, rfl, rfl, rfl, rfl, rfl, rfl, rfl, rfl, rfl, rfl,
    rfl, rfl, rfl, rfl, noFrameViews_of_hasFrame_false _ (hasFrame_eq_false _ hk hpd), noHkViews_of_res_ne _ hk,
    noPdViews_of_res_ne _ hpd, noAlertViews_of_rvalid_false _ rfl, fun hnil => step_of_port_nil _ hnil⟩

end Sys2Proof.Proofs
end

section
/-! SUPPORT. The laws of the host's MemRead: a range of FB byte by byte, and its window (20_memory.md R62). -/

namespace Sys2Proof.Proofs

open Sys2Proof.Machine Sys2Proof.Laws

@[simp] theorem fbRange_length (s : State) (a n : Nat) : (s.fbRange a n).length = n := by
  simp [State.fbRange]

theorem byteAt_fbRange (s : State) (a n i : Nat) (h : i < n) : byteAt (s.fbRange a n) i = s.fbByte (a + i) := by
  rw [byteAt_eq_getElem _ _ (by simpa using h)]
  simp [State.fbRange]

/-- A Frame exists exactly with one of the two accepting results (10_state.md R39). -/
theorem hasFrame_iff (s : State) : s.hasFrame = true ↔ s.res = .okHk ∨ s.res = .okPd := by
  simp [State.hasFrame]

/-- The condition MemRead tests is the window of R62: a Frame exists and `addr + n <= N`. -/
theorem memReadCondition_iff (s : State) (addr n : Nat) :
    (s.hasFrame && decide (addr + n ≤ s.count.toNat)) = true ↔
      (s.res = .okHk ∨ s.res = .okPd) ∧ addr + n ≤ s.count.toNat := by
  rw [Bool.and_eq_true, hasFrame_iff, decide_eq_true_iff]

theorem memRead_inside (s : State) (addr n : Nat) (h : (s.res = .okHk ∨ s.res = .okPd) ∧ addr + n ≤ s.count.toNat) :
    s.memRead addr n = some (s.fbRange addr n) := by
  rw [State.memRead, (memReadCondition_iff s addr n).mpr h, viewIf_true]

theorem memRead_outside (s : State) (addr n : Nat) (h : ¬ ((s.res = .okHk ∨ s.res = .okPd) ∧ addr + n ≤ s.count.toNat)) :
    s.memRead addr n = none := by
  rw [State.memRead, Bool.eq_false_iff.mpr (mt (memReadCondition_iff s addr n).mp h), viewIf_false]

end Sys2Proof.Proofs
end

section
/-! The statements of the memory family, settled. -/

namespace Sys2Proof.Proofs

open Sys2Proof.Machine Sys2Proof.Laws

/-- Settles O24: in FB and in a datagram a wider value is built from the same bytes, so the laws of `be16` and `be32` say it. -/
theorem mixedWidthReadsSeeTheSameBytes : Obligations.MixedWidthReadsSeeTheSameBytes :=
  ⟨fun _ => be32_toNat _ _ _ _, fun _ _ => be16_toNat _ _, fun _ _ => be32_toNat _ _ _ _, fun _ _ => be16_toNat _ _⟩

/-- Settles O47: inside the window MemRead is the range of FB, which holds FB's bytes in order; outside it is refused. -/
theorem memReadHasItsWindow : Obligations.MemReadHasItsWindow := fun s addr n =>
  ⟨fun h => ⟨s.fbRange addr n, memRead_inside s addr n h, fbRange_length s addr n, byteAt_fbRange s addr n⟩,
    memRead_outside s addr n⟩

end Sys2Proof.Proofs
end

section
/-! SUPPORT. The laws of the decoder and the encoder: a command word by its two fields (30_encoding.md R90, R91), a datagram by
the fields of its row (R81, R111). -/

namespace Sys2Proof.Proofs

open Sys2Proof.Machine Sys2Proof.Laws

@[simp] theorem commandWord_cmd (cmd : BitVec 2) (data : Byte) : (commandWord cmd data).extractLsb' 8 2 = cmd :=
  BitVec.extractLsb'_append_eq_left

@[simp] theorem commandWord_data (cmd : BitVec 2) (data : Byte) : (commandWord cmd data).extractLsb' 0 8 = data :=
  BitVec.extractLsb'_append_eq_right

/-- A command word is its two fields: no bit stands outside them. -/
theorem commandWord_fields (w : BitVec 10) : commandWord (w.extractLsb' 8 2) (w.extractLsb' 0 8) = w :=
  (BitVec.extractLsb'_append_extractLsb'_eq_extractLsb' (x := w) (by rfl)).trans BitVec.extractLsb'_eq_self

-- The command by its code (R91).
theorem decodeWord_nop (w : BitVec 10) (h : w.extractLsb' 8 2 = 0) : decodeWord w = .nop (w.extractLsb' 0 8) := by
  simp [decodeWord, h]

theorem decodeWord_start (w : BitVec 10) (h : w.extractLsb' 8 2 = 1) : decodeWord w = .start (w.extractLsb' 0 8) := by
  simp [decodeWord, h]

theorem decodeWord_byte (w : BitVec 10) (h : w.extractLsb' 8 2 = 2) : decodeWord w = .byte (w.extractLsb' 0 8) := by
  simp [decodeWord, h]

theorem decodeWord_end (w : BitVec 10) (h : w.extractLsb' 8 2 = 3) : decodeWord w = .end_ (w.extractLsb' 0 8) := by
  simp [decodeWord, h]

/-- All four command codes are assigned (R91). -/
theorem cmd_cases (c : BitVec 2) : c = 0 ∨ c = 1 ∨ c = 2 ∨ c = 3 := by
  revert c
  decide

/-- The code is the two high bits as a number (R90). -/
theorem cmd_eq_of_div (w : BitVec 10) (c : BitVec 2) (h : w.toNat / 256 = c.toNat) : w.extractLsb' 8 2 = c := by
  have hc := c.isLt
  apply BitVec.eq_of_toNat_eq
  rw [BitVec.extractLsb'_toNat, Nat.shiftRight_eq_div_pow]
  omega

/-- The data is the low eight bits as a number (R90). -/
theorem data_eq_ofNat (w : BitVec 10) : w.extractLsb' 0 8 = BitVec.ofNat 8 (w.toNat % 256) := by
  apply BitVec.eq_of_toNat_eq
  rw [BitVec.extractLsb'_toNat, Nat.shiftRight_zero, BitVec.toNat_ofNat, Nat.mod_mod]

theorem encode_decodeWord (w : BitVec 10) : encode (decodeWord w) = .word w := by
  have hfields := commandWord_fields w
  rcases cmd_cases (w.extractLsb' 8 2) with h | h | h | h <;> rw [h] at hfields
  · rw [decodeWord_nop w h, encode, hfields]
  · rw [decodeWord_start w h, encode, hfields]
  · rw [decodeWord_byte w h, encode, hfields]
  · rw [decodeWord_end w h, encode, hfields]

-- The row by SYNC and TYPE (R111), for a datagram that has room for the fields (log 5).
theorem decodeFrame_hk (bs : List Byte) (h12 : 12 ≤ bs.length) (hsync : be16At bs 0 = Config.syncConst)
    (htype : byteAt bs 3 = Config.typeHk) : decodeFrame bs = .instr (.hk (frameOperandsOf bs)) := by
  rw [decodeFrame, if_neg (not_lt.mpr h12), if_neg (not_not.mpr hsync), if_pos htype]

theorem decodeFrame_pd (bs : List Byte) (h12 : 12 ≤ bs.length) (hsync : be16At bs 0 = Config.syncConst)
    (htype : byteAt bs 3 = Config.typePd) : decodeFrame bs = .instr (.pd (frameOperandsOf bs)) := by
  have hhk : byteAt bs 3 ≠ Config.typeHk := by rw [htype]; decide
  rw [decodeFrame, if_neg (not_lt.mpr h12), if_neg (not_not.mpr hsync), if_neg hhk, if_pos htype]

/-- Nothing else is an instruction of the table, and the operands are the fields at their offsets (R81). -/
theorem decodeFrame_eq_instr_iff (bs : List Byte) (i : Instr) : decodeFrame bs = .instr i ↔
    12 ≤ bs.length ∧ be16At bs 0 = Config.syncConst ∧
      (byteAt bs 3 = Config.typeHk ∧ i = .hk (frameOperandsOf bs) ∨
       byteAt bs 3 = Config.typePd ∧ i = .pd (frameOperandsOf bs)) := by
  constructor
  · intro h
    unfold decodeFrame at h
    split_ifs at h with hlen hsync hhk hpd <;> cases h
    · exact ⟨not_lt.mp hlen, not_not.mp hsync, .inl ⟨hhk, rfl⟩⟩
    · exact ⟨not_lt.mp hlen, not_not.mp hsync, .inr ⟨hpd, rfl⟩⟩
  · rintro ⟨h12, hsync, ⟨htype, rfl⟩ | ⟨htype, rfl⟩⟩
    · exact decodeFrame_hk bs h12 hsync htype
    · exact decodeFrame_pd bs h12 hsync htype

theorem decodeFrame_eq_hk_iff (bs : List Byte) : (∃ f, decodeFrame bs = .instr (.hk f)) ↔
    12 ≤ bs.length ∧ be16At bs 0 = Config.syncConst ∧ byteAt bs 3 = Config.typeHk := by
  simp [decodeFrame_eq_instr_iff]

theorem decodeFrame_eq_pd_iff (bs : List Byte) : (∃ f, decodeFrame bs = .instr (.pd f)) ↔
    12 ≤ bs.length ∧ be16At bs 0 = Config.syncConst ∧ byteAt bs 3 = Config.typePd := by
  simp [decodeFrame_eq_instr_iff]

/-- Every operand is read back from its own offset. -/
@[simp] theorem frameOperandsOf_frameBytes (type : Byte) (f : FrameOperands) :
    frameOperandsOf (frameBytes type f) = f := by
  obtain ⟨-, hlen, -, hsatid, hts⟩ := frameBytes_fields type f
  rw [frameOperandsOf, hlen, hsatid, hts, frameBytes_payload, frameBytes_chk]

theorem drop_eq_trailer (bs : List Byte) (h : 2 ≤ bs.length) :
    bs.drop (bs.length - 2) = be16Bytes (be16At bs (bs.length - 2)) := by
  rw [be16At, be16Bytes_be16, byteAt_eq_getElem bs _ (by omega), byteAt_eq_getElem bs _ (by omega),
    List.drop_eq_getElem_cons (by omega), List.drop_eq_getElem_cons (by omega), List.drop_eq_nil_of_le (by omega)]

/-- The header of a datagram, byte by byte. -/
theorem take_ten_eq_header (bs : List Byte) (h : 10 ≤ bs.length) :
    bs.take 10 = be16Bytes (be16At bs 0) ++ [byteAt bs 2, byteAt bs 3] ++ be16Bytes (be16At bs 4) ++
      be32Bytes (be32At bs 6) := by
  rw [be16At, be16At, be32At, be16Bytes_be16, be16Bytes_be16, be32Bytes_be32]
  refine List.ext_getElem (by simpa using h) fun i hi _ => ?_
  rw [List.getElem_take, ← byteAt_eq_getElem]
  rw [List.length_take] at hi
  have : i < 10 := by omega
  interval_cases i <;> rfl

/-- No byte of a datagram stands outside the fields. -/
theorem frameBytes_frameOperandsOf (bs : List Byte) (h12 : 12 ≤ bs.length) (hsync : be16At bs 0 = Config.syncConst) :
    frameBytes (byteAt bs 3) (frameOperandsOf bs) = bs := by
  have hbody : frameBody (byteAt bs 3) (frameOperandsOf bs) = bs.take (bs.length - 2) := by
    have hhead : (bs.take (bs.length - 2)).take 10 = bs.take 10 := by rw [List.take_take, min_eq_left (by omega)]
    rw [← List.take_append_drop 10 (bs.take (bs.length - 2)), hhead, take_ten_eq_header bs (by omega), hsync]
    rfl
  rw [frameBytes, hbody]
  exact (congrArg _ (drop_eq_trailer bs (by omega)).symm).trans (List.take_append_drop _ bs)

theorem encode_of_decodeFrame (bs : List Byte) (i : Instr) (h : decodeFrame bs = .instr i) : encode i = .datagram bs := by
  obtain ⟨h12, hsync, ⟨htype, rfl⟩ | ⟨htype, rfl⟩⟩ := (decodeFrame_eq_instr_iff bs i).mp h
  all_goals rw [encode, ← htype, frameBytes_frameOperandsOf bs h12 hsync]

/-- The masked first four bytes are SYNC and TYPE: a row matches exactly when both are the row's (R111). -/
theorem headMasked_eq_iff (bs : List Byte) (type : Byte) :
    (be32At bs 0).toNat &&& 0xFFFF00FF = 0x1ACF0000 + type.toNat ↔
      be16At bs 0 = Config.syncConst ∧ byteAt bs 3 = type := by
  have hmask : (be32At bs 0).toNat &&& 0xFFFF00FF = (be16At bs 0).toNat * 65536 + (byteAt bs 3).toNat :=
    be32_masked _ _ _ _
  have hsync : Config.syncConst.toNat = 0x1ACF := rfl
  have htype := type.isLt
  have h3 := (byteAt bs 3).isLt
  rw [hmask, ← BitVec.toNat_inj, ← BitVec.toNat_inj, hsync]
  omega

end Sys2Proof.Proofs
end

section
/-! SUPPORT. Acceptance of a frame's datagram by `decode_bytes`, check by check (42_frame_decoder.md R160 to R173). -/

namespace Sys2Proof.Proofs

open Sys2Proof.Machine Sys2Proof.Laws

/-- A datagram is accepted exactly when it passes every check before the dispatch, and the dispatch accepts it. -/
theorem decodeBytes_eq_frame_iff (bs : List Byte) (g : Frame) :
    decodeBytes bs = .frame g ↔ 12 ≤ bs.length ∧ be16At bs 0 = Config.syncConst ∧ (byteAt bs 2).toNat = bs.length ∧
      checksum (slice bs 0 (bs.length - 2)) = be16At bs (bs.length - 2) ∧ decodeByType bs = .frame g := by
  simp only [decodeBytes, Config.minLen]
  constructor
  · intro h
    split_ifs at h with hzero hmin hsync hlen hdecl hchk
    exact ⟨not_lt.mp hmin, not_not.mp hsync, not_not.mp hlen, not_not.mp hchk, h⟩
  · rintro ⟨hmin, hsync, hlen, hchk, h⟩
    rw [if_neg (by omega), if_neg (by omega), if_neg (not_not.mpr hsync), if_neg (not_not.mpr hlen), if_neg (by omega),
      if_neg (not_not.mpr hchk), h]

/-- A frame can fail only the checks of LEN and CHK there: SYNC and 12 bytes it always has. -/
theorem decodeBytes_frameBytes_eq_frame_iff (type : Byte) (f : FrameOperands) (g : Frame) :
    decodeBytes (frameBytes type f) = .frame g ↔
      f.lenOk = true ∧ f.chkOk type = true ∧ decodeByType (frameBytes type f) = .frame g := by
  obtain ⟨hsync, hlen, -, -, -⟩ := frameBytes_fields type f
  have hmin : 12 ≤ (frameBytes type f).length := by simp
  have hbody : slice (frameBytes type f) 0 ((frameBytes type f).length - 2) = frameBody type f := frameBytes_take type f
  rw [decodeBytes_eq_frame_iff, and_iff_right hmin, and_iff_right hsync, hlen, hbody, frameBytes_chk,
    frameBytes_length, FrameOperands.lenOk, FrameOperands.chkOk, beq_iff_eq, beq_iff_eq, eq_comm (a := f.chk)]

theorem decodeByType_hk (bs : List Byte) (h : byteAt bs 3 = Config.typeHk) : decodeByType bs = decodeHk bs := by
  rw [decodeByType, if_pos h]

theorem decodeByType_pd (bs : List Byte) (h : byteAt bs 3 = Config.typePd) : decodeByType bs = decodePd bs := by
  rw [decodeByType, if_neg (by rw [h]; decide), if_pos h]

theorem decodeHk_eq_frame_iff (bs : List Byte) (g : Frame) :
    decodeHk bs = .frame g ↔ 8 ≤ bs.length - 12 ∧ g = frameOf bs (.housekeeping (hkFieldsOf bs)) := by
  rw [decodeHk]
  split_ifs with h
  · exact iff_of_false (by simp) fun hg => absurd hg.1 (not_le.mpr h)
  · rw [DecodeResult.frame.injEq, eq_comm, and_iff_right (not_lt.mp h)]

/-- An HK is accepted exactly when it is well-formed, and there is one Frame it can decode to (R170). -/
theorem decodeBytes_hk_iff (f : FrameOperands) (g : Frame) :
    decodeBytes (frameBytes Config.typeHk f) = .frame g ↔ (Instr.hk f).wf = true ∧
      g = frameOf (frameBytes Config.typeHk f) (.housekeeping (hkFieldsOf (frameBytes Config.typeHk f))) := by
  obtain ⟨-, -, htype, -, -⟩ := frameBytes_fields Config.typeHk f
  have hpay : f.hkPayloadOk = true ↔ 8 ≤ (frameBytes Config.typeHk f).length - 12 := by
    rw [frameBytes_length, Nat.add_sub_cancel_left, FrameOperands.hkPayloadOk, decide_eq_true_iff]
  rw [decodeBytes_frameBytes_eq_frame_iff, decodeByType_hk _ htype, decodeHk_eq_frame_iff, ← hpay, Instr.wf,
    Bool.and_eq_true, Bool.and_eq_true]
  tauto

/-- The same of a PD, whose payload may have any length (R171). -/
theorem decodeBytes_pd_iff (f : FrameOperands) (g : Frame) :
    decodeBytes (frameBytes Config.typePd f) = .frame g ↔ (Instr.pd f).wf = true ∧
      g = frameOf (frameBytes Config.typePd f) (.payloadData (payloadOf (frameBytes Config.typePd f))
        (hexLower (payloadOf (frameBytes Config.typePd f))) ((frameBytes Config.typePd f).length - 12)) := by
  obtain ⟨-, -, htype, -, -⟩ := frameBytes_fields Config.typePd f
  rw [decodeBytes_frameBytes_eq_frame_iff, decodeByType_pd _ htype, decodePd, DecodeResult.frame.injEq, eq_comm (b := g),
    ← and_assoc, Instr.wf, Bool.and_eq_true]

end Sys2Proof.Proofs
end

section
/-! SUPPORT. The byte port: the command words of an input, and that taking the input runs them (30_encoding.md
R90, R106, R107). -/

namespace Sys2Proof.Proofs

open Sys2Proof.Machine Sys2Proof.Safety Sys2Proof.Laws

/-- No instruction stops the machine (60_exceptions.md R260). -/
theorem exec_eq_next (i : Instr) (s : State) : ∃ t, exec i s = .next t := by
  cases i <;> exact ⟨_, rfl⟩

theorem runProgram_singleton (i : Instr) (s : State) : runProgram [i] s = exec i s := by
  obtain ⟨t, ht⟩ := exec_eq_next i s
  simp [runProgram, ht]

/-- A FRAME instruction presents the datagram that encodes it (R106). -/
theorem exec_of_encode_datagram (i : Instr) (bs : List Byte) (s : State) (h : encode i = .datagram bs) :
    exec i s = .next (presentDatagram bs s) := by
  cases i with
  | nop d => cases h
  | start d => cases h
  | byte d => cases h
  | end_ d => cases h
  | hk f => cases h; exact exec_hk f s
  | pd f => cases h; exact exec_pd f s

/-- Every datagram is presented whole, of the table or not. -/
theorem takeDatagram_eq (bs : List Byte) (s : State) : takeDatagram bs s = .next (presentDatagram bs s) := by
  cases h : decodeFrame bs with
  | instr i => rw [takeDatagram, h, ← exec_of_encode_datagram i bs s (encode_of_decodeFrame bs i h)]
  | reject r => exact takeDatagram_reject bs s r h

theorem isDgram_of_bytes (bs : List Byte) (d e : Byte) : IsDgram bs (.start d :: (bs.map Instr.byte ++ [.end_ e])) := by
  refine ⟨d, e, List.filter_eq_self.mpr fun i hi => ?_⟩
  simp only [List.mem_cons, List.mem_append, List.mem_map, List.not_mem_nil, or_false] at hi
  rcases hi with rfl | ⟨b, -, rfl⟩ | rfl <;> rfl

/-- The command words of a datagram are its DGRAM (R106). -/
theorem decodeWord_dgramWords (bs : List Byte) :
    (dgramWords bs).map decodeWord = .start 0 :: (bs.map Instr.byte ++ [.end_ 0]) := by
  have hbyte : decodeWord ∘ commandWord 2 = Instr.byte := by
    funext b
    rw [Function.comp, decodeWord_byte _ (commandWord_cmd 2 b), commandWord_data]
  rw [dgramWords, List.map_cons, List.map_append, List.map_map, hbyte]
  rfl

theorem runProgram_dgramWords (bs : List Byte) (s : State) :
    runProgram ((dgramWords bs).map decodeWord) s = .next (presentDatagram bs s) := by
  rw [decodeWord_dgramWords]
  exact runProgram_dgram bs _ s (isDgram_of_bytes bs 0 0)

theorem wordsOf_text_of_failed (t : Text) (x : Failure) (h : textToBytes t = .failed x) : wordsOf (.text t) = [] := by
  rw [wordsOf, h]

theorem wordsOf_text_of_bytes (t u : Text) (bs : List Byte) (h : textToBytes t = .bytes u bs) :
    wordsOf (.text t) = dgramWords bs := by
  rw [wordsOf, h]

theorem takeText_of_failed (t : Text) (x : Failure) (s : State) (h : textToBytes t = .failed x) :
    takeText t s = s.reportText x := by
  rw [takeText, h]

theorem takeText_of_bytes (t u : Text) (bs : List Byte) (s : State) (h : textToBytes t = .bytes u bs) :
    takeText t s = s.presentText u bs := by
  rw [takeText, h]

/-- An input puts command words on the byte port, or it is RESET, or it is a text that fails in TF. -/
theorem wordsOf_ne_nil_iff (x : PortItem) :
    wordsOf x ≠ [] ↔ (∃ w, x = .word w) ∨ (∃ bs, x = .datagram bs) ∨
      ∃ t u bs, x = .text t ∧ textToBytes t = .bytes u bs := by
  cases x with
  | rst => simp [wordsOf]
  | word w => simp [wordsOf]
  | datagram bs => simp [wordsOf, dgramWords]
  | text t =>
    cases h : textToBytes t with
    | failed f => simp [wordsOf_text_of_failed t f h, h]
    | bytes u bs => simp [wordsOf_text_of_bytes t u bs h, h, dgramWords]

/-- Taking an input that puts command words on the port is taking the words one after the other, but for the model's own fields
of a text (log 6). -/
theorem takeItem_runs_words (x : PortItem) (s : State) (h : wordsOf x ≠ []) :
    ∃ r t, runProgram ((wordsOf x).map decodeWord) s = .next r ∧ takeItem x s = .next t ∧
      t = { r with rawText := t.rawText, textFail := t.textFail } := by
  rcases (wordsOf_ne_nil_iff x).mp h with ⟨w, rfl⟩ | ⟨bs, rfl⟩ | ⟨txt, u, bs, rfl, htext⟩
  · obtain ⟨t, ht⟩ := exec_eq_next (decodeWord w) s
    exact ⟨t, t, (runProgram_singleton _ s).trans ht, ht, rfl⟩
  · exact ⟨_, _, runProgram_dgramWords bs s, takeDatagram_eq bs s, rfl⟩
  · rw [wordsOf_text_of_bytes txt u bs htext, takeItem, takeText_of_bytes txt u bs s htext]
    exact ⟨_, _, runProgram_dgramWords bs s, rfl, rfl⟩

/-- Taking an input that puts none there, and is not RESET, is TF's report of a text. -/
theorem takeItem_of_no_words (x : PortItem) (s : State) (h : wordsOf x = []) (hne : x ≠ .rst) :
    ∃ f, takeItem x s = .next (s.reportText f) := by
  cases x with
  | rst => exact absurd rfl hne
  | word w => cases h
  | datagram bs => cases h
  | text t =>
    cases htext : textToBytes t with
    | failed f => exact ⟨f, by rw [takeItem, takeText_of_failed t f s htext]⟩
    | bytes u bs => rw [wordsOf_text_of_bytes t u bs htext] at h; cases h

theorem presentedWords_of_port_nil (s : State) (h : s.port = []) : s.presentedWords = [] := by
  rw [State.presentedWords, h]

theorem presentedWords_of_port_cons (s : State) (x : PortItem) (rest : List PortItem) (h : s.port = x :: rest) :
    s.presentedWords = wordsOf x := by
  rw [State.presentedWords, h]

theorem inValid_iff (s : State) : s.inValid = true ↔ s.presentedWords ≠ [] := by
  simp [State.inValid]

theorem rstInput_iff (s : State) : s.rstInput = true ↔ ∃ rest, s.port = .rst :: rest := by
  cases h : s.port <;> simp [State.rstInput, h]

theorem inWord_eq_none_iff (s : State) : s.inWord = none ↔ s.inValid = false := by
  simp [State.inWord, State.inValid]

/-- `in_valid` by the kind of the oldest input (R90). -/
theorem inValid_iff_port (s : State) : s.inValid = true ↔ (∃ w rest, s.port = .word w :: rest) ∨
    (∃ bs rest, s.port = .datagram bs :: rest) ∨
      ∃ txt u bs rest, s.port = .text txt :: rest ∧ textToBytes txt = .bytes u bs := by
  rw [inValid_iff]
  cases hp : s.port with
  | nil => simp [presentedWords_of_port_nil s hp]
  | cons x rest => simp [presentedWords_of_port_cons s x rest hp, wordsOf_ne_nil_iff]

/-- On a transfer the step is the presented command words taken one after the other (R90). -/
theorem step_of_transfer (s : State) (h : s.transfer = true) :
    ∃ x rest r t, s.port = x :: rest ∧ s.inWord = (wordsOf x).head? ∧
      runProgram ((wordsOf x).map decodeWord) (s.withPort rest) = .next r ∧ step s = .next t ∧
      t = { r with rawText := t.rawText, textFail := t.textFail } := by
  have hwords := (transfer_iff s).mp h
  cases hp : s.port with
  | nil => exact absurd (presentedWords_of_port_nil s hp) hwords
  | cons x rest =>
    have hx := presentedWords_of_port_cons s x rest hp
    obtain ⟨r, t, hrun, htake, ht⟩ := takeItem_runs_words x (s.withPort rest) (hx ▸ hwords)
    exact ⟨x, rest, r, t, rfl, congrArg List.head? hx, hrun, (step_of_port_cons s x rest hp).trans htake, ht⟩

theorem step_of_rstInput (s : State) (h : s.rstInput = true) : step s = .next (s.resetEvent.withPort s.port.tail) := by
  obtain ⟨rest, hp⟩ := (rstInput_iff s).mp h
  rw [step_of_port_cons s .rst rest hp, hp]
  rfl

/-- With no transfer and no RESET the step takes no command: nothing is presented, or a text that fails in TF is. -/
theorem step_of_no_transfer (s : State) (h : s.transfer = false) (hrst : s.rstInput = false) :
    ∃ t, step s = .next t ∧ t = { s with port := s.port.tail, textFail := t.textFail } := by
  cases hp : s.port with
  | nil => exact ⟨s, step_of_port_nil s hp, by rw [List.tail_nil, ← hp]⟩
  | cons x rest =>
    have hnone : wordsOf x = [] := by
      rw [← presentedWords_of_port_cons s x rest hp]
      exact not_not.mp (mt (transfer_iff s).mpr (by simp [h]))
    have hne : x ≠ .rst := fun hx => Bool.eq_false_iff.mp hrst ((rstInput_iff s).mpr ⟨rest, hx ▸ hp⟩)
    obtain ⟨f, hf⟩ := takeItem_of_no_words x (s.withPort rest) hnone hne
    exact ⟨_, (step_of_port_cons s x rest hp).trans hf, rfl⟩

end Sys2Proof.Proofs
end

section
/-! The statements of the encoding family, settled. -/

namespace Sys2Proof.Proofs

open Sys2Proof.Machine Sys2Proof.Safety Sys2Proof.Laws

/-- Settles O1: a command word by its two fields, a datagram by the fields at their offsets. -/
theorem decodeOfEncodeIsIdentity : Obligations.DecodeOfEncodeIsIdentity := by
  intro i
  cases i with
  | nop d => rw [encode, decodeItem, decodeWord_nop _ (commandWord_cmd 0 d), commandWord_data]
  | start d => rw [encode, decodeItem, decodeWord_start _ (commandWord_cmd 1 d), commandWord_data]
  | byte d => rw [encode, decodeItem, decodeWord_byte _ (commandWord_cmd 2 d), commandWord_data]
  | end_ d => rw [encode, decodeItem, decodeWord_end _ (commandWord_cmd 3 d), commandWord_data]
  | hk f =>
    obtain ⟨hsync, -, htype, -, -⟩ := frameBytes_fields Config.typeHk f
    rw [encode, decodeItem, decodeFrame_hk _ (by simp) hsync htype, frameOperandsOf_frameBytes]
  | pd f =>
    obtain ⟨hsync, -, htype, -, -⟩ := frameBytes_fields Config.typePd f
    rw [encode, decodeItem, decodeFrame_pd _ (by simp) hsync htype, frameOperandsOf_frameBytes]

/-- Settles O2: only command words and datagrams decode, and neither has a bit outside the fields it is decoded to. -/
theorem encodeOfDecodeIsIdentity : Obligations.EncodeOfDecodeIsIdentity := by
  intro x i h
  cases x with
  | rst => cases h
  | word w =>
    cases h
    exact encode_decodeWord w
  | datagram bs => exact encode_of_decodeFrame bs i h
  | text t => cases h

/-- Settles O3: under the mask, the first four bytes are SYNC and TYPE. -/
theorem frameRowsSelectTheInstruction : Obligations.FrameRowsSelectTheInstruction := fun bs =>
  ⟨(decodeFrame_eq_hk_iff bs).trans (and_congr_right' (headMasked_eq_iff bs Config.typeHk).symm),
    (decodeFrame_eq_pd_iff bs).trans (and_congr_right' (headMasked_eq_iff bs Config.typePd).symm)⟩

/-- Settles O23: for each kind, acceptance is well-formedness, and the Frame has that kind's variant. -/
theorem wellFormedFramesAreTheAcceptedOnes : Obligations.WellFormedFramesAreTheAcceptedOnes := by
  refine ⟨fun f => ?_, fun f => ?_⟩
  · have hiff := decodeBytes_hk_iff f
    exact ⟨⟨fun hwf => ⟨_, (hiff _).mpr ⟨hwf, rfl⟩⟩, fun ⟨g, hg⟩ => ((hiff g).mp hg).1⟩,
      ⟨fun hwf => ⟨_, _, (hiff _).mpr ⟨hwf, rfl⟩, rfl⟩, fun ⟨g, _, hg, _⟩ => ((hiff g).mp hg).1⟩⟩
  · have hiff := decodeBytes_pd_iff f
    exact ⟨⟨fun hwf => ⟨_, (hiff _).mpr ⟨hwf, rfl⟩⟩, fun ⟨g, hg⟩ => ((hiff g).mp hg).1⟩,
      ⟨fun hwf => ⟨_, _, _, _, (hiff _).mpr ⟨hwf, rfl⟩, rfl⟩, fun ⟨g, _, _, _, hg, _⟩ => ((hiff g).mp hg).1⟩⟩

/-- Settles O58: the command words of each input, and the step with a transfer, with RESET and with neither. -/
theorem transfersTakeThePresentedCommands : Obligations.TransfersTakeThePresentedCommands := by
  refine ⟨fun _ => rfl, rfl, decodeWord_dgramWords, wordsOf_text_of_failed, wordsOf_text_of_bytes, fun s => ?_⟩
  have hvalid : s.transfer = true ↔ s.inValid = true := (transfer_iff s).trans (inValid_iff s).symm
  exact ⟨inValid_iff_port s, rstInput_iff s, hvalid, inWord_eq_none_iff s, step_of_transfer s,
    fun _ => step_of_rstInput s, step_of_no_transfer s⟩

/-- Settles O4: the code is the two high bits, the operand the low eight, and `exec` drops the `data` of NOP, START and END. -/
theorem commandCodesSelectTheCommand : Obligations.CommandCodesSelectTheCommand := by
  refine ⟨fun w => ⟨fun h => ?_, fun h => ?_, fun h => ?_, fun h => ?_⟩, fun _ _ _ => ⟨rfl, rfl, rfl⟩⟩
  · exact ⟨_, decodeWord_nop w (cmd_eq_of_div w 0 h)⟩
  · exact ⟨_, decodeWord_start w (cmd_eq_of_div w 1 h)⟩
  · rw [decodeWord_byte w (cmd_eq_of_div w 2 h), data_eq_ofNat]
  · exact ⟨_, decodeWord_end w (cmd_eq_of_div w 3 h)⟩

/-- Settles O5, by evaluating the decoder. -/
theorem sampleWordsDecode : Obligations.SampleWordsDecode := by
  unfold Obligations.SampleWordsDecode
  decide

/-- Settles O45: both sides present the datagram. -/
theorem frameInstructionIsItsDgram : Obligations.FrameInstructionIsItsDgram := by
  intro i bs s d e h
  rw [exec_of_encode_datagram i bs s h]
  exact runProgram_dgram bs _ s (isDgram_of_bytes bs d e)

end Sys2Proof.Proofs
end

section
/-! SUPPORT. The laws of the checksum over whole sequences: append, linearity, injectivity in the register, and the table form
(40_checksum_codec.md R125 to R130). -/

namespace Sys2Proof.Proofs

open Sys2Proof.Machine Sys2Proof.Laws

theorem crcUpdate_append (r : BitVec 16) (xs ys : List Byte) :
    crcUpdate r (xs ++ ys) = crcUpdate (crcUpdate r xs) ys := by
  induction xs generalizing r with
  | nil => rfl
  | cons x xs ih => simpa using ih _

theorem checksum_append (xs ys : List Byte) : checksum (xs ++ ys) = crcUpdate (checksum xs) ys :=
  crcUpdate_append _ _ _

theorem crcUpdate_xor (p q : BitVec 16) (xs ys : List Byte) (h : xs.length = ys.length) :
    crcUpdate (p ^^^ q) (List.zipWith (· ^^^ ·) xs ys) = crcUpdate p xs ^^^ crcUpdate q ys := by
  induction xs generalizing p q ys with
  | nil =>
    cases ys with
    | nil => rfl
    | cons y ys => cases h
  | cons x xs ih =>
    cases ys with
    | nil => cases h
    | cons y ys =>
      rw [List.zipWith_cons_cons, crcUpdate_cons, crcUpdateByte_xor]
      exact ih _ _ ys (Nat.succ.inj h)

theorem crcUpdate_injective_register (p q : BitVec 16) (bs : List Byte) (h : crcUpdate p bs = crcUpdate q bs) : p = q := by
  induction bs generalizing p q with
  | nil => exact h
  | cons b bs ih => exact crcUpdateByte_injective_register p q b (ih _ _ h)

@[simp] theorem crcUpdateByte_zero_zero : crcUpdateByte 0 0 = 0 := crcSteps_zero 8

-- The bit step by the top bit on numbers (R121).
theorem crcStepBit_of_le (r : BitVec 16) (h : 32768 ≤ r.toNat) : crcStepBit r = r <<< 1 ^^^ Config.poly :=
  if_pos (by simpa [BitVec.msb_eq_decide] using h)

theorem crcStepBit_of_lt (r : BitVec 16) (h : r.toNat < 32768) : crcStepBit r = r <<< 1 :=
  if_neg (by simpa [BitVec.msb_eq_decide] using h)

theorem shiftLeft_one_toNat (r : BitVec 16) : (r <<< 1).toNat = 2 * r.toNat % 65536 := by
  rw [BitVec.toNat_shiftLeft, Nat.shiftLeft_eq, Nat.mul_comm]

/-- While no 1 leaves at the top, bit steps are a shift. -/
theorem crcSteps_eq_shiftLeft (n : Nat) (r : BitVec 16) (h : r.toNat * 2 ^ n < 65536) : crcSteps n r = r <<< n := by
  induction n generalizing r with
  | zero => simp [crcSteps]
  | succ n ih =>
    have hdouble : 2 * r.toNat * 2 ^ n < 65536 := by rwa [Nat.mul_comm 2, Nat.mul_assoc, ← Nat.pow_succ']
    have hlt : 2 * r.toNat < 65536 := (Nat.le_mul_of_pos_right _ (Nat.two_pow_pos n)).trans_lt hdouble
    have hshift : (r <<< 1).toNat = 2 * r.toNat := by rw [shiftLeft_one_toNat, Nat.mod_eq_of_lt hlt]
    rw [crcSteps, crcStepBit_of_lt r (by omega), ih _ (hshift ▸ hdouble), ← BitVec.shiftLeft_add, Nat.add_comm]

theorem be16_xor (a b c d : Byte) : be16 (a ^^^ c) (b ^^^ d) = be16 a b ^^^ be16 c d :=
  BitVec.xor_append.symm

theorem be16_zero_loByte_toNat (r : BitVec 16) : (be16 0 (loByte r)).toNat = r.toNat % 256 := by
  simp [be16_toNat, loByte_toNat]

theorem be16_zero_loByte_shiftLeft (r : BitVec 16) : be16 0 (loByte r) <<< 8 = r <<< 8 := by
  apply BitVec.eq_of_toNat_eq
  rw [BitVec.toNat_shiftLeft, BitVec.toNat_shiftLeft, be16_zero_loByte_toNat, Nat.shiftLeft_eq, Nat.shiftLeft_eq]
  omega

/-- The low byte goes through eight steps as a shift. -/
theorem crcSteps_eight_low (r : BitVec 16) : crcSteps 8 (be16 0 (loByte r)) = r <<< 8 := by
  have hlow : (be16 0 (loByte r)).toNat * 2 ^ 8 < 65536 := by
    rw [be16_zero_loByte_toNat]
    omega
  rw [crcSteps_eq_shiftLeft 8 _ hlow, be16_zero_loByte_shiftLeft]

/-- The eight steps of the high byte alone are the table entry. -/
theorem crcSteps_eight_high (i : Byte) : crcSteps 8 (be16 i 0) = crcTab i := by
  rw [crcTab, crcUpdateByte, crcXorHigh_eq]
  congr 2
  exact BitVec.zero_xor.symm

/-- The register is its two halves XORed, and the steps are linear. -/
theorem crcUpdateByte_eq_tab (r : BitVec 16) (b : Byte) : crcUpdateByte r b = crcUpdateByteTab r b := by
  have hhalves : be16 (hiByte r ^^^ b) (loByte r) = be16 0 (loByte r) ^^^ be16 (hiByte r ^^^ b) 0 := by
    rw [← be16_xor]
    exact congrArg₂ be16 BitVec.zero_xor.symm BitVec.xor_zero.symm
  rw [crcUpdateByte, crcXorHigh_eq, hhalves, crcSteps_xor, crcSteps_eight_low, crcSteps_eight_high]
  rfl

/-- The register's own high byte clears it, and the low byte moves up (R127). -/
theorem crcUpdateByte_hiByte (r : BitVec 16) : crcUpdateByte r (hiByte r) = r <<< 8 := by
  rw [crcUpdateByte, crcXorHigh_eq, BitVec.xor_self]
  exact crcSteps_eight_low r

theorem hiByte_shiftLeft_eight (r : BitVec 16) : hiByte (r <<< 8) = loByte r := by
  apply BitVec.eq_of_toNat_eq
  rw [hiByte_toNat, loByte_toNat, BitVec.toNat_shiftLeft, Nat.shiftLeft_eq]
  omega

/-- A register through which its own two bytes run is zero (R127). -/
theorem crcUpdate_own_bytes (c : BitVec 16) : crcUpdate c [hiByte c, loByte c] = 0 := by
  rw [crcUpdate_cons, crcUpdateByte_hiByte, ← hiByte_shiftLeft_eight, crcUpdate_cons, crcUpdateByte_hiByte, crcUpdate_nil,
    ← BitVec.shiftLeft_add]
  exact BitVec.shiftLeft_eq_zero (le_refl 16)

end Sys2Proof.Proofs
end

section
/-! The statements of the checksum family, settled. -/

namespace Sys2Proof.Proofs

open Sys2Proof.Machine Sys2Proof.Laws

/-- Settles O8, by induction on the first part. -/
theorem checksumIsIncremental : Obligations.ChecksumIsIncremental :=
  checksum_append

/-- Settles O9: a trailer takes its own value to zero, and no other register. -/
theorem residueIsZeroExactlyForARightTrailer : Obligations.ResidueIsZeroExactlyForARightTrailer := by
  intro xs c
  rw [checksum_append]
  constructor
  · intro h
    exact crcUpdate_injective_register c _ _ ((crcUpdate_own_bytes c).trans h.symm)
  · rintro rfl
    exact crcUpdate_own_bytes _

/-- Settles O10: the initial register is its own XOR with itself, and a zero byte leaves it zero. -/
theorem checksumIsLinear : Obligations.ChecksumIsLinear := by
  refine ⟨crcUpdate_xor 0 0, fun xs => ?_⟩
  rw [checksum, crcUpdate_cons, crcUpdateByte_zero_zero]
  rfl

/-- Settles O11: different bytes give different registers, and the equal rest keeps them apart. -/
theorem oneByteChangesTheChecksum : Obligations.OneByteChangesTheChecksum := by
  intro xs ys a b hab h
  rw [checksum_append, checksum_append] at h
  exact hab (crcUpdateByte_injective_byte _ a b (crcUpdate_injective_register _ _ ys h))

/-- Settles O12: the formula by linearity, the entries by evaluating them. -/
theorem tableFormComputesTheSame : Obligations.TableFormComputesTheSame :=
  ⟨crcUpdateByte_eq_tab, by decide⟩

/-- Settles O6, by the top bit. -/
theorem crcStepBitShiftsAndXors : Obligations.CrcStepBitShiftsAndXors := by
  refine ⟨fun r => ?_, by decide⟩
  split_ifs with htop
  · rw [crcStepBit_of_le r htop, BitVec.toNat_xor, shiftLeft_one_toNat]
    exact (Nat.xor_mod_two_pow (n := 16)).symm
  · rw [crcStepBit_of_lt r (not_le.mp htop), shiftLeft_one_toNat]

/-- Settles O7: the byte meets the high byte, and `crcSteps 8` is eight bit steps. -/
theorem crcUpdateByteIsEightSteps : Obligations.CrcUpdateByteIsEightSteps := by
  refine ⟨fun r b => ?_, by decide⟩
  rw [crcUpdateByte, crcXorHigh_eq]
  rfl

end Sys2Proof.Proofs
end

section
/-! SUPPORT. The text front end, step by step: what a strip removes, what a digit is, the pairs of digits, and the outcome of
each step (41_text_front_end.md R142 to R148). -/

namespace Sys2Proof.Proofs

open Sys2Proof.Machine Sys2Proof.Safety Sys2Proof.Laws

-- Stripping (R142).

theorem strip_ws_append (u s : Text) (h : ∀ c ∈ u, isWs c = true) : strip (u ++ s) = strip s := by
  rw [strip, List.dropWhile_append_of_pos h, strip]

theorem strip_append_ws (s v : Text) (h : ∀ c ∈ v, isWs c = true) : strip (s ++ v) = strip s := by
  rw [strip, strip, List.dropWhile_append]
  split
  · rename_i hs
    rw [List.dropWhile_eq_nil_iff.mpr h, List.isEmpty_iff.mp hs]
  · rw [List.reverse_append, List.dropWhile_append_of_pos fun c hc => h c (List.mem_reverse.mp hc)]

/-- What a strip removes is whitespace on the two sides. -/
theorem exists_ws_append_strip (s : Text) : ∃ u v : Text, (∀ c ∈ u, isWs c = true) ∧ (∀ c ∈ v, isWs c = true) ∧
    u ++ strip s ++ v = s := by
  refine ⟨s.takeWhile isWs, (s.dropWhile isWs).rtakeWhile isWs, fun c => List.mem_takeWhile_imp,
    fun c => List.mem_rtakeWhile_imp, ?_⟩
  calc s.takeWhile isWs ++ strip s ++ (s.dropWhile isWs).rtakeWhile isWs
      = s.takeWhile isWs ++ ((s.dropWhile isWs).rdropWhile isWs ++ (s.dropWhile isWs).rtakeWhile isWs) :=
        List.append_assoc _ _ _
    _ = s := by rw [List.rdropWhile_append_rtakeWhile, List.takeWhile_append_dropWhile]

/-- The whitespace a strip removes could as well have been there: both texts strip to the same. -/
theorem strip_strip (s : Text) : strip (strip s) = strip s := by
  obtain ⟨u, v, hu, hv, hs⟩ := exists_ws_append_strip s
  calc strip (strip s) = strip (u ++ strip s ++ v) := by rw [strip_append_ws _ v hv, strip_ws_append u _ hu]
    _ = strip s := by rw [hs]

theorem normalise_congr_strip (s t : Text) (h : strip s = strip t) : normalise s = normalise t := by
  rw [normalise, h, normalise]

-- Hexadecimal digits (30_encoding.md R99).

theorem code_of_digit (c : Byte) (h : digitVal c ≠ none) : 0x30 ≤ c.toNat ∧ c.toNat ≤ 0x66 := by
  unfold digitVal at h
  split_ifs at h with hdec hlow hup
  · omega
  · omega
  · omega
  · exact absurd rfl h

theorem isWs_of_digit (c : Byte) (h : digitVal c ≠ none) : isWs c = false := by
  have hcode := code_of_digit c h
  simp only [isWs, Bool.or_eq_false_iff, Bool.and_eq_false_iff, decide_eq_false_iff_not, beq_eq_false_iff_ne]
  omega

theorem isNewline_of_digit (c : Byte) (h : digitVal c ≠ none) : isNewline c = false := by
  have hcode := code_of_digit c h
  simp only [isNewline, Bool.or_eq_false_iff, beq_eq_false_iff_ne]
  constructor <;> rintro rfl <;> simp at hcode

theorem digitVal_digit (c : Byte) (h : digitVal c ≠ none) : digitVal c = some (digit c) := by
  obtain ⟨n, hn⟩ := Option.ne_none_iff_exists'.mp h
  rw [digit, hn, Option.getD_some]

@[simp] theorem digitVal_hexDigitLower (n : BitVec 4) : digitVal (hexDigitLower n) = some n := by
  revert n
  decide

@[simp] theorem digit_hexDigitLower (n : BitVec 4) : digit (hexDigitLower n) = n := by
  rw [digit, digitVal_hexDigitLower, Option.getD_some]

theorem dropWhile_isWs_of_digits (t : Text) (h : ∀ c ∈ t, digitVal c ≠ none) : t.dropWhile isWs = t :=
  List.dropWhile_eq_self_iff.mpr fun hl => by simp [isWs_of_digit _ (h _ (List.getElem_mem hl))]

theorem strip_of_digits (t : Text) (h : ∀ c ∈ t, digitVal c ≠ none) : strip t = t := by
  rw [strip, dropWhile_isWs_of_digits t h, dropWhile_isWs_of_digits _ fun c hc => h c (List.mem_reverse.mp hc),
    List.reverse_reverse]

/-- `x` (0x78) is no digit. -/
theorem dropHexPrefix_of_digits (t : Text) (h : ∀ c ∈ t, digitVal c ≠ none) : dropHexPrefix t = t := by
  unfold dropHexPrefix
  split
  · rename_i a b rest
    refine if_neg fun ⟨_, hx⟩ => ?_
    have hcode := (code_of_digit b (h b (by simp))).2
    simp [hx] at hcode
  · rfl

theorem dropNewlines_of_digits (t : Text) (h : ∀ c ∈ t, digitVal c ≠ none) : dropNewlines t = t :=
  List.filter_eq_self.mpr fun c hc => by simp [isNewline_of_digit c (h c hc)]

/-- A text of digits has nothing for the three strips to remove. -/
theorem normalise_of_digits (t : Text) (h : ∀ c ∈ t, digitVal c ≠ none) : normalise t = t := by
  rw [normalise, strip_of_digits t h, dropHexPrefix_of_digits t h, dropNewlines_of_digits t h]

-- The first character that is no digit (R147).

theorem firstNonDigit_of_digits (k : Nat) (t : Text) (h : ∀ c ∈ t, digitVal c ≠ none) : firstNonDigit k t = none := by
  induction t generalizing k with
  | nil => rfl
  | cons c t ih =>
    obtain ⟨hc, ht⟩ := List.forall_mem_cons.mp h
    rw [firstNonDigit, if_neg (by simpa using hc), ih _ ht]

theorem firstNonDigit_append (k : Nat) (u v : Text) (c : Byte) (hu : ∀ d ∈ u, digitVal d ≠ none) (hc : digitVal c = none) :
    firstNonDigit k (u ++ c :: v) = some (k + u.length, c) := by
  induction u generalizing k with
  | nil => simp [firstNonDigit, hc]
  | cons d u ih =>
    obtain ⟨hd, hu⟩ := List.forall_mem_cons.mp hu
    rw [List.cons_append, firstNonDigit, if_neg (by simpa using hd), ih _ hu, List.length_cons, Nat.add_right_comm,
      Nat.add_assoc]

-- Pairs of digits (R147).

theorem length_hexPairs (t : Text) : (hexPairs t).length = t.length / 2 := by
  fun_induction hexPairs t with
  | case1 a b s ih => simp only [List.length_cons, ih]; omega
  | case2 t ht =>
    rcases t with _ | ⟨a, _ | ⟨b, s⟩⟩
    · rfl
    · simp
    · exact (ht a b s rfl).elim

theorem byteAt_hexPairs (t : Text) (i : Nat) (h : i < (hexPairs t).length) :
    byteAt (hexPairs t) i = digit (byteAt t (2 * i)) ++ digit (byteAt t (2 * i + 1)) := by
  fun_induction hexPairs t generalizing i with
  | case1 a b s ih =>
    cases i with
    | zero => rfl
    | succ i => exact ih i (Nat.lt_of_succ_lt_succ h)
  | case2 t ht => cases h

theorem digits_toNat (h l : BitVec 4) : (h ++ l).toNat = 16 * h.toNat + l.toNat := by
  rw [BitVec.toNat_append, ← Nat.shiftLeft_add_eq_or_of_lt l.isLt, Nat.shiftLeft_eq, Nat.mul_comm]

theorem hexPairs_hexLower (bs : List Byte) : hexPairs (hexLower bs) = bs := by
  induction bs with
  | nil => rfl
  | cons b bs ih =>
    rw [hexLower, hexPairs, digit_hexDigitLower, digit_hexDigitLower, ih]
    congr 1
    apply BitVec.eq_of_toNat_eq
    have hlt := b.isLt
    simp only [digits_toNat, BitVec.extractLsb'_toNat, Nat.shiftRight_eq_div_pow]
    omega

@[simp] theorem length_hexLower (bs : List Byte) : (hexLower bs).length = 2 * bs.length := by
  induction bs with
  | nil => rfl
  | cons b bs ih => simp only [hexLower, List.length_cons, ih]; omega

theorem digitVal_of_mem_hexLower (bs : List Byte) : ∀ c ∈ hexLower bs, digitVal c ≠ none := by
  induction bs with
  | nil => simp [hexLower]
  | cons b bs ih => simpa [hexLower] using ih

-- The outcome of each step (R140, R145 to R148).

theorem hexToBytes_of_digits (t : Text) (h : ∀ c ∈ t, digitVal c ≠ none) : hexToBytes t = .bytes t (hexPairs t) := by
  rw [hexToBytes, firstNonDigit_of_digits 0 t h]

theorem hexToBytes_append (u v : Text) (c : Byte) (hu : ∀ d ∈ u, digitVal d ≠ none) (hc : digitVal c = none) :
    hexToBytes (u ++ c :: v) = .failed ⟨.invalidHexChars, BitVec.ofNat 16 u.length, 0, c.setWidth 16⟩ := by
  rw [hexToBytes, firstNonDigit_append 0 u v c hu hc, Nat.zero_add]

theorem textToBytes_of_empty (s : Text) (h : normalise s = []) : textToBytes s = .failed ⟨.emptyInput, 0, 0, 0⟩ := by
  simp [textToBytes, h]

theorem textToBytes_of_odd (s : Text) (h : (normalise s).length % 2 = 1) :
    textToBytes s = .failed ⟨.oddHexLength, 0, 0, BitVec.ofNat 16 (normalise s).length⟩ := by
  simp only [textToBytes]
  rw [if_neg (by omega), if_pos h]

theorem textToBytes_of_even (s : Text) (hne : normalise s ≠ []) (h : (normalise s).length % 2 = 0) :
    textToBytes s = hexToBytes (normalise s) := by
  simp only [textToBytes]
  rw [if_neg (by simpa using hne), if_neg (by omega)]

/-- The text TF hands on is the normalised one. -/
theorem eq_normalise_of_textToBytes (s u : Text) (bs : List Byte) (h : textToBytes s = .bytes u bs) : u = normalise s := by
  simp only [textToBytes] at h
  split_ifs at h
  exact hexToBytes_eq_bytes _ _ _ h

theorem decodeText_of_failed (s : Text) (x : Failure) (h : textToBytes s = .failed x) : decodeText s = .failed x := by
  rw [decodeText, h]

theorem decodeText_of_bytes (s u : Text) (bs : List Byte) (h : textToBytes s = .bytes u bs) :
    decodeText s = withRawHex u (decodeBytes bs) := by
  rw [decodeText, h]

/-- The rendering of the bytes is the `raw_hex` that `decode_bytes` gives (10_state.md R40). -/
theorem withRawHex_hexLower (bs : List Byte) : withRawHex (hexLower bs) (decodeBytes bs) = decodeBytes bs := by
  cases hd : decodeBytes bs with
  | failed x => rfl
  | frame f => rw [withRawHex, ← (frame_raw_of_accepted bs f hd).2]

theorem textToBytes_hexLower (bs : List Byte) (h : bs ≠ []) : textToBytes (hexLower bs) = .bytes (hexLower bs) bs := by
  have hdigits := digitVal_of_mem_hexLower bs
  have hnorm := normalise_of_digits (hexLower bs) hdigits
  have hlen := length_hexLower bs
  have hpos := List.length_pos_iff.mpr h
  rw [textToBytes_of_even _ (by rw [hnorm]; exact List.length_pos_iff.mp (by omega)) (by rw [hnorm]; omega), hnorm,
    hexToBytes_of_digits _ hdigits, hexPairs_hexLower]

/-- A Frame that came through TF shows with the kept text as its `raw_hex` (10_state.md R40). -/
theorem viewFrame_presentText (s : State) (u : Text) (bs : List Byte) (f : Frame) (h : withRawHex u (decodeBytes bs) = .frame f) :
    (s.presentText u bs).viewFrame = some f := by
  obtain ⟨hh, ho, -⟩ := presentDatagram_spec bs s
  cases hd : decodeBytes bs with
  | failed x => rw [hd] at h; cases h
  | frame g =>
    rw [hd] at h ho
    cases h
    exact viewFrame_of_accepted _ bs g hh hd (presentText_hasOutcome s u bs _ ho)

end Sys2Proof.Proofs
end

section
/-! The statements of the text front end, settled. -/

namespace Sys2Proof.Proofs

open Sys2Proof.Machine Sys2Proof.Safety Sys2Proof.Laws

/-- Settles O13: whitespace at either end makes no difference to a strip; the two examples are evaluated. -/
theorem stripIsIdempotent : Obligations.StripIsIdempotent := by
  refine ⟨strip_strip, fun s => normalise_congr_strip _ _ (strip_strip s), fun u s v h => ?_, by decide⟩
  obtain ⟨hu, hv⟩ := List.forall_mem_append.mp h
  exact normalise_congr_strip _ _ ((strip_append_ws _ v hv).trans (strip_ws_append u s hu))

/-- Settles O14: the outcome of each step, and the bytes digit by digit. -/
theorem decodeTextStepsInOrder : Obligations.DecodeTextStepsInOrder := by
  rintro s t rfl
  refine ⟨fun h => ?_, fun h => ?_, fun heven u v c ht hu hc => ?_, fun hne heven hdigits => ?_⟩
  · exact decodeText_of_failed s _ (textToBytes_of_empty s h)
  · exact decodeText_of_failed s _ (textToBytes_of_odd s h)
  · exact decodeText_of_failed s _ <| by
      rw [textToBytes_of_even s (by simp [ht]) heven, ht, hexToBytes_append u v c hu hc]
  · have hlen := length_hexPairs (normalise s)
    refine ⟨hexPairs (normalise s), by omega, fun i hi => ?_, decodeText_of_bytes s _ _ ?_⟩
    · have hdigit (j : Nat) (hj : j < (normalise s).length) :
          digitVal (byteAt (normalise s) j) = some (digit (byteAt (normalise s) j)) :=
        digitVal_digit _ (hdigits _ (byteAt_eq_getElem _ j hj ▸ List.getElem_mem hj))
      exact ⟨_, _, hdigit _ (by omega), hdigit _ (by omega), by rw [byteAt_hexPairs _ i hi, digits_toNat]⟩
    · rw [textToBytes_of_even s hne heven, hexToBytes_of_digits _ hdigits]

/-- Settles O15: no bytes are EmptyInput at both entries; other bytes are what TF reads from their rendering. -/
theorem textOfBytesDecodesAsTheBytes : Obligations.TextOfBytesDecodesAsTheBytes := by
  intro bs
  by_cases h : bs = []
  · subst h
    rfl
  · rw [decodeText_of_bytes _ _ _ (textToBytes_hexLower bs h), withRawHex_hexLower]

/-- Settles O51: the step takes the text, and a text that TF hands on is presented as its datagram. -/
theorem textEntryIsTheDgramOfItsBytes : Obligations.TextEntryIsTheDgramOfItsBytes := by
  intro s txt rest hport
  rw [step_of_port_cons s _ rest hport, takeItem]
  refine ⟨fun x hx => ?_, fun u bs hbytes => ?_⟩
  · rw [takeText_of_failed txt x _ hx]
    exact ⟨rfl, decodeText_of_failed txt x hx⟩
  · rw [takeText_of_bytes txt u bs _ hbytes, decodeText_of_bytes txt u bs hbytes]
    exact ⟨_, _, rfl, runProgram_dgram bs _ (s.withPort rest) (isDgram_of_bytes bs 0 0), rfl,
      eq_normalise_of_textToBytes txt u bs hbytes, viewFrame_presentText _ u bs⟩

end Sys2Proof.Proofs
end

section
/-! SUPPORT. `decode_bytes` check by check: the failure of each check, and the Frame once all have passed
(42_frame_decoder.md R160 to R174). -/

namespace Sys2Proof.Proofs

open Sys2Proof.Machine Sys2Proof.Laws

-- The failures, in the order of the checks (R161 to R164, R167).

theorem decodeBytes_nil : decodeBytes [] = .failed ⟨.emptyInput, 0, 0, 0⟩ := rfl

theorem decodeBytes_of_tooShort (bs : List Byte) (hpos : 1 ≤ bs.length) (hmin : bs.length < 12) :
    decodeBytes bs = .failed ⟨.tooShort, 0, 12, BitVec.ofNat 16 bs.length⟩ := by
  simp only [decodeBytes, Config.minLen]
  rw [if_neg (by omega), if_pos hmin]

theorem decodeBytes_of_syncMismatch (bs : List Byte) (hmin : 12 ≤ bs.length) (hsync : be16At bs 0 ≠ Config.syncConst) :
    decodeBytes bs = .failed ⟨.syncMismatch, 0, Config.syncConst, be16At bs 0⟩ := by
  simp only [decodeBytes, Config.minLen]
  rw [if_neg (by omega), if_neg (by omega), if_pos hsync]

theorem decodeBytes_of_lengthMismatch (bs : List Byte) (hmin : 12 ≤ bs.length) (hsync : be16At bs 0 = Config.syncConst)
    (hlen : (byteAt bs 2).toNat ≠ bs.length) :
    decodeBytes bs =
      .failed ⟨.lengthMismatch, 2, (byteAt bs 2).setWidth 16, BitVec.ofNat 16 (min bs.length 65535)⟩ := by
  simp only [decodeBytes, Config.minLen]
  rw [if_neg (by omega), if_neg (by omega), if_neg (not_not.mpr hsync), if_pos hlen]

theorem decodeBytes_of_crcMismatch (bs : List Byte) (hmin : 12 ≤ bs.length) (hsync : be16At bs 0 = Config.syncConst)
    (hlen : (byteAt bs 2).toNat = bs.length)
    (hchk : checksum (bs.take (bs.length - 2)) ≠ be16At bs (bs.length - 2)) :
    decodeBytes bs = .failed ⟨.crcMismatch, BitVec.ofNat 16 (bs.length - 2), checksum (bs.take (bs.length - 2)),
      be16At bs (bs.length - 2)⟩ := by
  simp only [decodeBytes, Config.minLen]
  rw [if_neg (by omega), if_neg (by omega), if_neg (not_not.mpr hsync), if_neg (not_not.mpr hlen), if_neg (by omega)]
  exact if_pos hchk

/-- With every check passed the type byte decides (R169). -/
theorem decodeBytes_of_checks (bs : List Byte) (hmin : 12 ≤ bs.length) (hsync : be16At bs 0 = Config.syncConst)
    (hlen : (byteAt bs 2).toNat = bs.length)
    (hchk : checksum (bs.take (bs.length - 2)) = be16At bs (bs.length - 2)) : decodeBytes bs = decodeByType bs := by
  simp only [decodeBytes, Config.minLen]
  rw [if_neg (by omega), if_neg (by omega), if_neg (not_not.mpr hsync), if_neg (not_not.mpr hlen), if_neg (by omega)]
  exact if_neg (not_not.mpr hchk)

theorem decodeByType_unknown (bs : List Byte) (hhk : byteAt bs 3 ≠ Config.typeHk) (hpd : byteAt bs 3 ≠ Config.typePd) :
    decodeByType bs = .failed ⟨.unknownType, 3, 0, (byteAt bs 3).setWidth 16⟩ := by
  rw [decodeByType, if_neg hhk, if_neg hpd]

theorem decodeHk_truncated (bs : List Byte) (h : bs.length < 20) :
    decodeHk bs = .failed ⟨.truncatedPayload, 10, 8, BitVec.ofNat 16 (bs.length - 12)⟩ := by
  rw [decodeHk, if_pos (by simp only [Config.hkMinPayload]; omega)]

/-- The dispatch fails on a housekeeping payload that is too short and on an unknown type (R170, R172). -/
theorem decodeByType_eq_failed_iff (bs : List Byte) (x : Failure) : decodeByType bs = .failed x ↔
      (byteAt bs 3 = Config.typeHk ∧ bs.length < 20 ∧
        x = ⟨.truncatedPayload, 10, 8, BitVec.ofNat 16 (bs.length - 12)⟩) ∨
      (byteAt bs 3 ≠ Config.typeHk ∧ byteAt bs 3 ≠ Config.typePd ∧
        x = ⟨.unknownType, 3, 0, (byteAt bs 3).setWidth 16⟩) := by
  constructor
  · intro h
    by_cases hhk : byteAt bs 3 = Config.typeHk
    · rw [decodeByType_hk bs hhk, decodeHk] at h
      split_ifs at h with hpay
      cases h
      simp only [Config.hkMinPayload] at hpay
      exact .inl ⟨hhk, by omega, rfl⟩
    · by_cases hpd : byteAt bs 3 = Config.typePd
      · rw [decodeByType_pd bs hpd] at h
        cases h
      · rw [decodeByType_unknown bs hhk hpd] at h
        cases h
        exact .inr ⟨hhk, hpd, rfl⟩
  · rintro (⟨hhk, hpay, rfl⟩ | ⟨hhk, hpd, rfl⟩)
    · rw [decodeByType_hk bs hhk, decodeHk_truncated bs hpay]
    · exact decodeByType_unknown bs hhk hpd

-- The Frames (R166, R170, R171).

theorem eq_frameOf_iff (bs : List Byte) (body : FrameBody) (f : Frame) : f = frameOf bs body ↔
    f.satid = be16At bs 4 ∧ f.ts = be32At bs 6 ∧ f.raw = bs ∧ f.rawHex = hexLower bs ∧ f.body = body := by
  cases f
  simp [frameOf]

/-- The dispatch answers a Frame for the two types, for housekeeping with 8 payload bytes. -/
theorem decodeByType_eq_frame_iff (bs : List Byte) (f : Frame) : decodeByType bs = .frame f ↔
      (byteAt bs 3 = Config.typeHk ∧ 20 ≤ bs.length ∧ f = frameOf bs (.housekeeping (hkFieldsOf bs))) ∨
      (byteAt bs 3 = Config.typePd ∧
        f = frameOf bs (.payloadData (payloadOf bs) (hexLower (payloadOf bs)) (bs.length - 12))) := by
  by_cases hhk : byteAt bs 3 = Config.typeHk
  · have h20 : 8 ≤ bs.length - 12 ↔ 20 ≤ bs.length := by omega
    simp [decodeByType_hk bs hhk, decodeHk_eq_frame_iff, hhk, h20]
  · by_cases hpd : byteAt bs 3 = Config.typePd
    · simp [decodeByType_pd bs hpd, decodePd, hpd, eq_comm]
    · rw [decodeByType_unknown bs hhk hpd]
      refine iff_of_false (by simp) ?_
      rintro (⟨h, -⟩ | ⟨h, -⟩)
      · exact hhk h
      · exact hpd h

-- A text (41_text_front_end.md R145 to R148).

/-- TF raises three kinds of its own. -/
theorem kind_of_textToBytes (s : Text) (x : Failure) (h : textToBytes s = .failed x) :
    x.kind = .emptyInput ∨ x.kind = .oddHexLength ∨ x.kind = .invalidHexChars := by
  simp only [textToBytes] at h
  split_ifs at h
  · cases h; exact .inl rfl
  · cases h; exact .inr (.inl rfl)
  · unfold hexToBytes at h
    split at h <;> cases h
    exact .inr (.inr rfl)

theorem withRawHex_eq_failed (t : Text) (r : DecodeResult) (x : Failure) (h : withRawHex t r = .failed x) :
    r = .failed x := by
  cases r with
  | frame f => cases h
  | failed y => exact h

-- One byte of a datagram changed (40_checksum_codec.md R127, R129).

theorem byteAt_changed_same (xs ys : List Byte) (b : Byte) : byteAt (xs ++ b :: ys) xs.length = b :=
  byteAt_append_right xs (b :: ys) 0

theorem byteAt_changed_other (xs ys : List Byte) (a b : Byte) (i : Nat) (h : i ≠ xs.length) :
    byteAt (xs ++ b :: ys) i = byteAt (xs ++ a :: ys) i := by
  rcases Nat.lt_or_gt_of_ne h with hlt | hgt
  · rw [byteAt_append_left _ _ _ hlt, byteAt_append_left _ _ _ hlt]
  · obtain ⟨k, rfl⟩ := Nat.exists_eq_add_of_lt hgt
    rw [Nat.add_assoc, byteAt_append_right, byteAt_append_right, byteAt_succ_cons, byteAt_succ_cons]

theorem be16_inj (a b c d : Byte) : be16 a b = be16 c d ↔ a = c ∧ b = d := by
  constructor
  · intro h
    exact ⟨by simpa using congrArg hiByte h, by simpa using congrArg loByte h⟩
  · rintro ⟨rfl, rfl⟩
    rfl

/-- A change of either of its bytes changes a 16-bit value. -/
theorem be16At_changed (xs ys : List Byte) (a b : Byte) (hab : a ≠ b) (h : xs.length ≤ 1) :
    be16At (xs ++ b :: ys) 0 ≠ be16At (xs ++ a :: ys) 0 := by
  intro heq
  obtain ⟨h0, h1⟩ := (be16_inj _ _ _ _).mp heq
  have hsame : byteAt (xs ++ b :: ys) xs.length = byteAt (xs ++ a :: ys) xs.length := by
    rcases Nat.le_one_iff_eq_zero_or_eq_one.mp h with hz | ho
    · rw [hz]; exact h0
    · rw [ho]; exact h1
  rw [byteAt_changed_same, byteAt_changed_same] at hsame
  exact hab hsame.symm

/-- The residue law for a datagram: CHK is right exactly when the checksum over all its bytes is zero. -/
theorem checksum_eq_zero_iff (bs : List Byte) (h : 2 ≤ bs.length) :
    checksum bs = 0 ↔ checksum (bs.take (bs.length - 2)) = be16At bs (bs.length - 2) := by
  have hsplit : bs.take (bs.length - 2) ++ be16Bytes (be16At bs (bs.length - 2)) = bs := by
    rw [← drop_eq_trailer bs h, List.take_append_drop]
  have hres := residueIsZeroExactlyForARightTrailer (bs.take (bs.length - 2)) (be16At bs (bs.length - 2))
  rw [← be16Bytes, hsplit] at hres
  exact hres.trans eq_comm

/-- A changed byte takes the checksum over all bytes away from zero, so CHK is right no longer. -/
theorem chk_wrong_of_changed (xs ys : List Byte) (a b : Byte) (hab : a ≠ b) (h : 2 ≤ (xs ++ a :: ys).length)
    (hchk : checksum ((xs ++ a :: ys).take ((xs ++ a :: ys).length - 2)) =
      be16At (xs ++ a :: ys) ((xs ++ a :: ys).length - 2)) :
    checksum ((xs ++ b :: ys).take ((xs ++ b :: ys).length - 2)) ≠
      be16At (xs ++ b :: ys) ((xs ++ b :: ys).length - 2) := by
  intro hchk'
  have ha := (checksum_eq_zero_iff (xs ++ a :: ys) h).mpr hchk
  have hb := (checksum_eq_zero_iff (xs ++ b :: ys) (by simpa using h)).mpr hchk'
  exact oneByteChangesTheChecksum xs ys a b hab (ha.trans hb.symm)

end Sys2Proof.Proofs
end

section
/-! The statements about `decode_bytes` over all byte sequences, settled. -/

namespace Sys2Proof.Proofs

open Sys2Proof.Machine Sys2Proof.Laws

/-- Settles O19, by the checks in their order: each has its failure, and what fails none is left to the dispatch. -/
theorem firstFailingCheckDecides : Obligations.FirstFailingCheckDecides := by
  intro bs x
  constructor
  · intro h
    by_cases hnil : bs = []
    · subst hnil; cases h
      exact .inl ⟨rfl, rfl⟩
    have hpos := List.length_pos_iff.mpr hnil
    by_cases hmin : bs.length < 12
    · rw [decodeBytes_of_tooShort bs hpos hmin] at h; cases h
      exact .inr (.inl ⟨hpos, by omega, rfl⟩)
    rw [not_lt] at hmin
    by_cases hsync : be16At bs 0 ≠ Config.syncConst
    · rw [decodeBytes_of_syncMismatch bs hmin hsync] at h; cases h
      exact .inr (.inr (.inl ⟨hmin, hsync, rfl⟩))
    rw [not_not] at hsync
    by_cases hlen : (byteAt bs 2).toNat ≠ bs.length
    · rw [decodeBytes_of_lengthMismatch bs hmin hsync hlen] at h; cases h
      exact .inr (.inr (.inr (.inl ⟨hmin, hsync, hlen, rfl⟩)))
    rw [not_not] at hlen
    by_cases hchk : checksum (bs.take (bs.length - 2)) ≠ be16At bs (bs.length - 2)
    · rw [decodeBytes_of_crcMismatch bs hmin hsync hlen hchk] at h; cases h
      exact .inr (.inr (.inr (.inr (.inl ⟨hmin, hsync, hlen, hchk, rfl⟩))))
    rw [not_not] at hchk
    rw [decodeBytes_of_checks bs hmin hsync hlen hchk, decodeByType_eq_failed_iff bs x] at h
    rcases h with htrunc | htype
    · exact .inr (.inr (.inr (.inr (.inr (.inl ⟨hmin, hsync, hlen, hchk, htrunc⟩)))))
    · exact .inr (.inr (.inr (.inr (.inr (.inr ⟨hmin, hsync, hlen, hchk, htype⟩)))))
  · rintro (⟨rfl, rfl⟩ | ⟨hpos, hmin, rfl⟩ | ⟨hmin, hsync, rfl⟩ | ⟨hmin, hsync, hlen, rfl⟩ |
      ⟨hmin, hsync, hlen, hchk, rfl⟩ | ⟨hmin, hsync, hlen, hchk, htrunc⟩ | ⟨hmin, hsync, hlen, hchk, htype⟩)
    · exact decodeBytes_nil
    · exact decodeBytes_of_tooShort bs hpos (by omega)
    · exact decodeBytes_of_syncMismatch bs hmin hsync
    · exact decodeBytes_of_lengthMismatch bs hmin hsync hlen
    · exact decodeBytes_of_crcMismatch bs hmin hsync hlen hchk
    · rw [decodeBytes_of_checks bs hmin hsync hlen hchk, decodeByType_eq_failed_iff bs x]
      exact .inl htrunc
    · rw [decodeBytes_of_checks bs hmin hsync hlen hchk, decodeByType_eq_failed_iff bs x]
      exact .inr htype

/-- Settles O16: the kind is none of the seven of `decode_bytes` and none of the three of TF. -/
theorem declaredLengthBelowMinimumIsUnreachable : Obligations.DeclaredLengthBelowMinimumIsUnreachable := by
  have hbytes : ∀ bs x, decodeBytes bs = .failed x → x.kind ≠ .declaredLengthBelowMinimum := by
    intro bs x h
    rcases (firstFailingCheckDecides bs x).mp h with ⟨-, rfl⟩ | ⟨-, -, rfl⟩ | ⟨-, -, rfl⟩ | ⟨-, -, -, rfl⟩ |
      ⟨-, -, -, -, rfl⟩ | ⟨-, -, -, -, -, -, rfl⟩ | ⟨-, -, -, -, -, -, rfl⟩ <;> simp
  refine ⟨hbytes, fun s x h => ?_⟩
  cases ht : textToBytes s with
  | failed y =>
    rw [decodeText_of_failed s y ht] at h
    cases h
    rcases kind_of_textToBytes s x ht with hk | hk | hk <;> simp [hk]
  | bytes u bs =>
    rw [decodeText_of_bytes s u bs ht] at h
    exact hbytes bs x (withRawHex_eq_failed u _ x h)

/-- Settles O17: LEN is a byte and equals N, and housekeeping has passed the payload check. -/
theorem frameLengthBounds : Obligations.FrameLengthBounds := by
  intro bs f hd
  obtain ⟨hmin, hmax, hty⟩ := decodeBytes_eq_frame bs f hd
  refine ⟨hmin, hmax, fun h hbody => ?_⟩
  rcases decodeByType_eq_frame bs f hty with ⟨h20, -⟩ | rfl
  · exact h20
  · cases hbody

/-- Settles O18: the checks before the dispatch, then the two Frames of the dispatch, field by field. -/
theorem frameExactlyWhenEveryCheckPasses : Obligations.FrameExactlyWhenEveryCheckPasses := by
  intro bs f
  rw [decodeBytes_eq_frame_iff]
  refine and_congr_right fun _ => and_congr_right fun _ => and_congr_right fun _ => ?_
  refine and_congr eq_comm ?_
  rw [decodeByType_eq_frame_iff bs f, eq_frameOf_iff, eq_frameOf_iff, hkFieldsOf, payloadOf, slice]
  tauto

/-- Settles O20: SYNC or LEN shows the change in its own bytes; in any later byte the checksum does. -/
theorem corruptionNeverDecodes : Obligations.CorruptionNeverDecodes := by
  intro xs ys a b f hab h
  obtain ⟨hmin, hsync, hlen, hchk, -⟩ := (decodeBytes_eq_frame_iff _ f).mp h
  have hlength : (xs ++ b :: ys).length = (xs ++ a :: ys).length := by simp
  have hmin' : 12 ≤ (xs ++ b :: ys).length := hlength ▸ hmin
  have hother := byteAt_changed_other xs ys a b
  by_cases h1 : xs.length ≤ 1
  · have hsync' : be16At (xs ++ b :: ys) 0 ≠ Config.syncConst := hsync ▸ be16At_changed xs ys a b hab h1
    exact ⟨_, decodeBytes_of_syncMismatch _ hmin' hsync', by rw [if_pos h1]⟩
  have hsync' : be16At (xs ++ b :: ys) 0 = Config.syncConst := by
    rw [← hsync, be16At, be16At, hother 0 (by omega), hother 1 (by omega)]
  by_cases h2 : xs.length = 2
  · have hlen' : (byteAt (xs ++ b :: ys) 2).toNat ≠ (xs ++ b :: ys).length := by
      rw [hlength, ← hlen, ← h2, byteAt_changed_same, byteAt_changed_same, ne_eq, BitVec.toNat_inj]
      exact hab.symm
    exact ⟨_, decodeBytes_of_lengthMismatch _ hmin' hsync' hlen', by rw [if_neg h1, if_pos h2]⟩
  have hlen' : (byteAt (xs ++ b :: ys) 2).toNat = (xs ++ b :: ys).length := by
    rw [hother 2 (Ne.symm h2), hlength, hlen]
  have hchk' := chk_wrong_of_changed xs ys a b hab (by omega) hchk
  exact ⟨_, decodeBytes_of_crcMismatch _ hmin' hsync' hlen' hchk', by rw [if_neg h1, if_neg h2]⟩

end Sys2Proof.Proofs
end

section
/-! SUPPORT. The Frame of a well-formed HK and of a well-formed PD by its operands, and the operands that the encoders build
(30_encoding.md R84, R110, 42_frame_decoder.md R170, R171). -/

namespace Sys2Proof.Proofs

open Sys2Proof.Machine Sys2Proof.Laws

-- The operands of a frame, read from its datagram (R81).

/-- The payload stands in the datagram from offset 10 on. -/
theorem byteAt_frameBytes_payload (type : Byte) (f : FrameOperands) (i : Nat) (h : i < f.payload.length) :
    byteAt (frameBytes type f) (10 + i) = byteAt f.payload i := by
  have hsplit : frameBytes type f = (frameBody type f).take 10 ++ (f.payload ++ be16Bytes f.chk) := by
    rw [frameBytes, frameBody_eq]
    rfl
  have hten : ((frameBody type f).take 10).length = 10 := by simp
  have hright := byteAt_append_right ((frameBody type f).take 10) (f.payload ++ be16Bytes f.chk) i
  rw [hten] at hright
  rw [hsplit, hright, byteAt_append_left _ _ _ h]

/-- The housekeeping fields of a payload, at its offsets 0, 2, 3 and 4 (R84). -/
def payloadFields (p : List Byte) : HkFields :=
  { bv := be16At p 0, bt := sext8 (byteAt p 2), msi := byteAt p 3, ssr := be32At p 4 }

theorem hkFieldsOf_frameBytes (type : Byte) (f : FrameOperands) (h : 8 ≤ f.payload.length) :
    hkFieldsOf (frameBytes type f) = payloadFields f.payload := by
  have hpay (i : Nat) (hi : i < 8) : byteAt (frameBytes type f) (10 + i) = byteAt f.payload i :=
    byteAt_frameBytes_payload type f i (by omega)
  simp only [hkFieldsOf, payloadFields, be16At, be32At]
  rw [hpay 0 (by omega), hpay 1 (by omega), hpay 2 (by omega), hpay 3 (by omega), hpay 4 (by omega), hpay 5 (by omega),
    hpay 6 (by omega), hpay 7 (by omega)]

theorem frameOf_frameBytes (type : Byte) (f : FrameOperands) (body : FrameBody) :
    frameOf (frameBytes type f) body = ⟨f.satid, f.ts, frameBytes type f, hexLower (frameBytes type f), body⟩ := by
  obtain ⟨-, -, -, hsatid, hts⟩ := frameBytes_fields type f
  rw [frameOf, hsatid, hts]

-- What well-formedness says of the operands (R81, R84).

theorem lenOk_iff (f : FrameOperands) : f.lenOk = true ↔ f.len.toNat = 12 + f.payload.length := by
  rw [FrameOperands.lenOk, beq_iff_eq]

theorem chkOk_iff (f : FrameOperands) (type : Byte) : f.chkOk type = true ↔ f.chk = checksum (frameBody type f) := by
  rw [FrameOperands.chkOk, beq_iff_eq]

theorem hkPayloadOk_iff (f : FrameOperands) : f.hkPayloadOk = true ↔ 8 ≤ f.payload.length := by
  rw [FrameOperands.hkPayloadOk, decide_eq_true_iff]

theorem hk_wf_iff (f : FrameOperands) : (Instr.hk f).wf = true ↔ f.len.toNat = 12 + f.payload.length ∧
    8 ≤ f.payload.length ∧ f.chk = checksum (frameBody Config.typeHk f) := by
  rw [Instr.wf, Bool.and_eq_true, Bool.and_eq_true, lenOk_iff, hkPayloadOk_iff, chkOk_iff, and_assoc]

theorem pd_wf_iff (f : FrameOperands) : (Instr.pd f).wf = true ↔ f.len.toNat = 12 + f.payload.length ∧
    f.chk = checksum (frameBody Config.typePd f) := by
  rw [Instr.wf, Bool.and_eq_true, lenOk_iff, chkOk_iff]

/-- The Frame of a well-formed HK (42_frame_decoder.md R170). -/
theorem decodeBytes_of_hk_wf (f : FrameOperands) (hwf : (Instr.hk f).wf = true) :
    decodeBytes (frameBytes Config.typeHk f) = .frame ⟨f.satid, f.ts, frameBytes Config.typeHk f,
      hexLower (frameBytes Config.typeHk f), .housekeeping (payloadFields f.payload)⟩ := by
  obtain ⟨-, hpay, -⟩ := (hk_wf_iff f).mp hwf
  rw [decodeBytes_hk_iff, frameOf_frameBytes, hkFieldsOf_frameBytes _ f hpay]
  exact ⟨hwf, rfl⟩

/-- The Frame of a well-formed PD (42_frame_decoder.md R171). -/
theorem decodeBytes_of_pd_wf (f : FrameOperands) (hwf : (Instr.pd f).wf = true) :
    decodeBytes (frameBytes Config.typePd f) = .frame ⟨f.satid, f.ts, frameBytes Config.typePd f,
      hexLower (frameBytes Config.typePd f), .payloadData f.payload (hexLower f.payload) f.payload.length⟩ := by
  have hpay : payloadOf (frameBytes Config.typePd f) = f.payload := frameBytes_payload Config.typePd f
  rw [decodeBytes_pd_iff, frameOf_frameBytes, hpay, frameBytes_length, Nat.add_sub_cancel_left]
  exact ⟨hwf, rfl⟩

-- The failures of a frame (42_frame_decoder.md R164, R167, R170): SYNC, TYPE and 12 bytes it always has.

theorem decodeBytes_frameBytes_lengthMismatch (type : Byte) (f : FrameOperands) (hlen : f.len.toNat ≠ 12 + f.payload.length) :
    decodeBytes (frameBytes type f) =
      .failed ⟨.lengthMismatch, 2, f.len.setWidth 16, BitVec.ofNat 16 (min (12 + f.payload.length) 65535)⟩ := by
  obtain ⟨hsync, hbyte, -, -, -⟩ := frameBytes_fields type f
  rw [decodeBytes_of_lengthMismatch _ (by simp) hsync (by rwa [hbyte, frameBytes_length]), hbyte, frameBytes_length]

theorem decodeBytes_frameBytes_crcMismatch (type : Byte) (f : FrameOperands) (hlen : f.len.toNat = 12 + f.payload.length)
    (hchk : f.chk ≠ checksum (frameBody type f)) :
    decodeBytes (frameBytes type f) =
      .failed ⟨.crcMismatch, BitVec.ofNat 16 (10 + f.payload.length), checksum (frameBody type f), f.chk⟩ := by
  obtain ⟨hsync, hbyte, -, -, -⟩ := frameBytes_fields type f
  have hoff : (frameBytes type f).length - 2 = 10 + f.payload.length := by rw [frameBytes_length]; omega
  rw [decodeBytes_of_crcMismatch _ (by simp) hsync (by rwa [hbyte, frameBytes_length])
    (by rw [frameBytes_take, frameBytes_chk]; exact hchk.symm), frameBytes_take, frameBytes_chk, hoff]

theorem decodeBytes_hk_truncated (f : FrameOperands) (hlen : f.len.toNat = 12 + f.payload.length)
    (hchk : f.chk = checksum (frameBody Config.typeHk f)) (hpay : f.payload.length < 8) :
    decodeBytes (frameBytes Config.typeHk f) = .failed ⟨.truncatedPayload, 10, 8, BitVec.ofNat 16 f.payload.length⟩ := by
  obtain ⟨hsync, hbyte, htype, -, -⟩ := frameBytes_fields Config.typeHk f
  rw [decodeBytes_of_checks _ (by simp) hsync (by rwa [hbyte, frameBytes_length])
    (by rw [frameBytes_take, frameBytes_chk, hchk]), decodeByType_hk _ htype,
    decodeHk_truncated _ (by rw [frameBytes_length]; omega), frameBytes_length, Nat.add_sub_cancel_left]

-- The encoders (30_encoding.md R110).

theorem sext8_byteOfInt (v : Int) (hlo : -128 ≤ v) (hhi : v ≤ 127) : sext8 (byteOfInt v) = v := by
  rw [sext8, byteOfInt, BitVec.toNat_ofInt]
  split_ifs <;> omega

@[simp] theorem length_hkPayload (bv : BitVec 16) (bt : Int) (msi : Byte) (ssr : BitVec 32) :
    (hkPayload bv bt msi ssr).length = 8 := rfl

/-- The fields a housekeeping payload was built from, whatever follows its 8 bytes. -/
theorem payloadFields_hkPayload (bv : BitVec 16) (bt : Int) (msi : Byte) (ssr : BitVec 32) (extra : List Byte)
    (hlo : -128 ≤ bt) (hhi : bt ≤ 127) :
    payloadFields (hkPayload bv bt msi ssr ++ extra) = ⟨bv, bt, msi, ssr⟩ := by
  simp [payloadFields, hkPayload, be16Bytes, be32Bytes, be16At, be32At, sext8_byteOfInt bt hlo hhi]

/-- A payload built by `encode_hk`, with more bytes behind it, decodes to its four fields. -/
theorem decodeBytes_validOperands_hk (satid : BitVec 16) (ts : BitVec 32) (bv : BitVec 16) (bt : Int) (msi : Byte)
    (ssr : BitVec 32) (extra : List Byte) (hlo : -128 ≤ bt) (hhi : bt ≤ 127) (hextra : extra.length ≤ 235) (bs : List Byte)
    (hbs : bs = frameBytes Config.typeHk (validOperands Config.typeHk satid ts (hkPayload bv bt msi ssr ++ extra))) :
    decodeBytes bs = .frame ⟨satid, ts, bs, hexLower bs, .housekeeping ⟨bv, bt, msi, ssr⟩⟩ := by
  have hlength : (hkPayload bv bt msi ssr ++ extra).length = 8 + extra.length := by simp
  obtain ⟨hlen, hchk, hsatid, hts, hpay⟩ :=
    validOperands_spec Config.typeHk satid ts (hkPayload bv bt msi ssr ++ extra) (by omega)
  have hwf := (hk_wf_iff _).mpr ⟨by rw [hlen, hpay], by rw [hpay]; omega, hchk⟩
  rw [hbs, decodeBytes_of_hk_wf _ hwf, hsatid, hts, hpay, payloadFields_hkPayload bv bt msi ssr extra hlo hhi]

theorem decodeBytes_validOperands_pd (satid : BitVec 16) (ts : BitVec 32) (p : List Byte) (hp : p.length ≤ 243) (bs : List Byte)
    (hbs : bs = frameBytes Config.typePd (validOperands Config.typePd satid ts p)) :
    decodeBytes bs = .frame ⟨satid, ts, bs, hexLower bs, .payloadData p (hexLower p) p.length⟩ := by
  obtain ⟨hlen, hchk, hsatid, hts, hpay⟩ := validOperands_spec Config.typePd satid ts p hp
  have hwf := (pd_wf_iff _).mpr ⟨by rw [hlen, hpay], hchk⟩
  rw [hbs, decodeBytes_of_pd_wf _ hwf, hsatid, hts, hpay]

end Sys2Proof.Proofs
end

section
/-! The statements about encoded frames, settled. -/

namespace Sys2Proof.Proofs

open Sys2Proof.Machine Sys2Proof.Laws

/-- Settles O21: what the encoders build is well-formed, and the Frame of a well-formed frame holds its operands. -/
theorem roundTripOfFrames : Obligations.RoundTripOfFrames := by
  refine ⟨fun satid ts bv bt msi ssr hlo hhi => ⟨_, rfl, ?_⟩, fun satid ts p hp => ⟨_, rfl, ?_⟩⟩
  · exact decodeBytes_validOperands_hk satid ts bv bt msi ssr [] hlo hhi (Nat.zero_le _) _ (by rw [List.append_nil])
  · exact decodeBytes_validOperands_pd satid ts p hp _ rfl

/-- Settles O22: the four fields are read from the first 8 payload bytes, whatever the rest; the rest stands before CHK. -/
theorem extraHousekeepingBytesAreIgnored : Obligations.ExtraHousekeepingBytesAreIgnored := by
  intro satid ts bv bt msi ssr extra hlo hhi hextra
  refine ⟨_, rfl, ?_, ?_, decodeBytes_validOperands_hk satid ts bv bt msi ssr extra hlo hhi hextra _ rfl⟩
  · simp [validOperands]; omega
  · rw [frameBytes_take, frameBody_eq]
    rfl

end Sys2Proof.Proofs
end

section
/-! SUPPORT. What a state shows after a datagram: the views by the Frame that shows, and the outcome of `decode_bytes`
(10_state.md R39 to R43, 44_stream_commands.md R218, 60_exceptions.md R244, R245). -/

namespace Sys2Proof.Proofs

open Sys2Proof.Machine Sys2Proof.Safety Sys2Proof.Laws

theorem slice_fbRange (s : State) (n a b : Nat) (h : b ≤ n) : slice (s.fbRange 0 n) a b = s.fbRange a (b - a) := by
  apply List.ext_getElem
  · simp [slice]; omega
  · intro i h1 h2
    simp [slice, State.fbRange]

/-- The Frame that shows is the one in FB, under the condition of its views (10_state.md R40). -/
theorem viewFrame_eq_some (t : State) (f : Frame) (h : t.viewFrame = some f) : t.hasFrame = true ∧
    f = ⟨t.fbBe16 4, t.fbBe32 6, t.fbRange 0 t.count.toNat, t.rawText.getD (hexLower (t.fbRange 0 t.count.toNat)),
      t.frameBody⟩ := by
  cases hframe : t.hasFrame with
  | false => rw [State.viewFrame, hframe] at h; cases h
  | true => rw [State.viewFrame, hframe] at h; cases h; exact ⟨rfl, rfl⟩

/-- Every other view is a field of the Frame that shows (10_state.md R39 to R42). -/
theorem showsFrame_of_viewFrame (t : State) (f : Frame) (h : t.viewFrame = some f) : ShowsFrame t f := by
  obtain ⟨hframe, rfl⟩ := viewFrame_eq_some t f h
  have hpay : payloadOf (t.fbRange 0 t.count.toNat) = t.fbRange 10 (t.count.toNat - 12) := by
    rw [payloadOf, fbRange_length, slice_fbRange t _ 10 _ (by omega), Nat.sub_sub]
  refine ⟨h, ?_, ?_, ?_, ?_, ?_, ?_, ?_, ?_⟩
  · rw [State.viewSatid, hframe, viewIf_true]
  · rw [State.viewTs, hframe, viewIf_true]
  · rw [State.viewRaw, hframe, viewIf_true]
  · rw [State.viewRawHex, hframe, viewIf_true]
  · rw [State.viewN, hframe, viewIf_true, fbRange_length]
  · rw [State.viewPlen, hframe, viewIf_true, fbRange_length]
  · rw [State.viewPayload, hframe, viewIf_true, hpay]
  rcases (hasFrame_iff t).mp hframe with hres | hres
  · have hhk := isHk_eq_true t hres
    simp only [frameBody_of_okHk t hres]
    refine ⟨hres, ?_, ?_, ?_, ?_, ?_, noPdViews_of_res_ne t (by simp [hres])⟩
    · rw [State.viewKind, hframe, viewIf_true, if_pos hres]
    · rw [State.viewBv, hhk, viewIf_true]; rfl
    · rw [State.viewBt, hhk, viewIf_true]; rfl
    · rw [State.viewMsi, hhk, viewIf_true]; rfl
    · rw [State.viewSsr, hhk, viewIf_true]; rfl
  · have hpd : (t.res == .okPd) = true := beq_iff_eq.mpr hres
    simp only [frameBody_of_okPd t hres]
    refine ⟨hres, ?_, ?_, ?_, ?_, noHkViews_of_res_ne t (by simp [hres])⟩
    · rw [State.viewKind, hframe, viewIf_true, if_neg (by simp [hres])]
    · rw [State.viewPayload, hframe, viewIf_true]
    · rw [State.viewPayloadHex, hpd, viewIf_true]
    · rw [State.viewPayloadLength, hpd, viewIf_true]

/-- The alerts are those of the Frame that shows: none for a PayloadData Frame (43_health_evaluator.md R193, R199). -/
theorem viewAlerts_of_viewFrame (rules : RuleTable) (t : State) (f : Frame) (hv : t.rvalid = true) (h : t.viewFrame = some f) :
    t.viewAlerts rules = some ((evaluate rules f).getD []) := by
  obtain ⟨hframe, rfl⟩ := viewFrame_eq_some t f h
  rcases (hasFrame_iff t).mp hframe with hres | hres
  · rw [viewAlerts_of_okHk rules t hv hres, evaluate, frameBody_of_okHk t hres]
    rfl
  · rw [viewAlerts_of_res_ne rules t hv (by simp [hres]), evaluate, frameBody_of_okPd t hres]
    rfl

theorem showsFailure_of_hasOutcome (t : State) (x : Failure) (h : HasOutcome t (.failed x)) : ShowsFailure t x := by
  obtain ⟨-, hkind, hoff, hexp, hact, hres⟩ := h
  have hframe : t.hasFrame = false := hasFrame_eq_false t (by simp [hres]) (by simp [hres])
  exact ⟨hres, hkind, hoff, hexp, hact, noFrameViews_of_hasFrame_false t hframe, noHkViews_of_res_ne t (by simp [hres]),
    noPdViews_of_res_ne t (by simp [hres])⟩

/-- After a whole datagram the views show what `decode_bytes` and `evaluate` give its bytes (44_stream_commands.md R218). -/
theorem presentDatagram_showsOutcome (rules : RuleTable) (bs : List Byte) (s : State) :
    ShowsOutcome rules (presentDatagram bs s) (decodeBytes bs) := by
  obtain ⟨hh, ho, hp, -, hraw, -⟩ := presentDatagram_spec bs s
  cases hd : decodeBytes bs with
  | failed x =>
    rw [hd] at ho
    have ⟨hv, _, _, _, _, hres⟩ := ho
    exact ⟨hp, hv, showsFailure_of_hasOutcome _ x ho, viewAlerts_of_res_ne rules _ hv (by simp [hres])⟩
  | frame f =>
    rw [hd] at ho
    have ⟨hv, hkind, hoff, hexp, hact, _⟩ := ho
    have hview : (presentDatagram bs s).viewFrame = some f := by
      rw [viewFrame_of_accepted _ bs f hh hd ho, hraw, Option.getD_none, ← (frame_raw_of_accepted bs f hd).2]
    exact ⟨hp, hv, hkind, hoff, hexp, hact, showsFrame_of_viewFrame _ f hview, viewAlerts_of_viewFrame rules _ f hv hview⟩

/-- A datagram that fails shows its failure, with no Frame view and no alert. -/
theorem presentDatagram_showsFailure (bs : List Byte) (s : State) (x : Failure) (h : decodeBytes bs = .failed x) :
    ShowsFailure (presentDatagram bs s) x := by
  obtain ⟨-, ho, -⟩ := presentDatagram_spec bs s
  rw [h] at ho
  exact showsFailure_of_hasOutcome _ x ho

end Sys2Proof.Proofs
end

section
/-! The statements about frames at the byte port, settled. -/

namespace Sys2Proof.Proofs

open Sys2Proof.Machine Sys2Proof.Safety Sys2Proof.Laws

/-- Settles O41: the views show the Frame of a well-formed HK, whose fields are its operands. -/
theorem hkIsAccepted : Obligations.HkIsAccepted := by
  intro f s hwf
  have hshows := presentDatagram_showsOutcome defaultRules (frameBytes Config.typeHk f) s
  rw [decodeBytes_of_hk_wf f hwf] at hshows
  obtain ⟨hp, hv, hkind, hoff, hexp, hact, hframe, -⟩ := hshows
  obtain ⟨-, hsatid, hts, hraw, hhex, hn, -, hpay, hres, hvkind, hbv, hbt, hmsi, hssr, -⟩ := hframe
  have hpayload : payloadOf (frameBytes Config.typeHk f) = f.payload := frameBytes_payload Config.typeHk f
  rw [frameBytes_length] at hn
  rw [hpayload] at hpay
  exact ⟨_, exec_hk f s, hp, hv, hres, hkind, hoff, hexp, hact, hvkind, hsatid, hts, hn, hpay, hraw, hhex, hbv, hbt, hmsi,
    hssr⟩

/-- Settles O42: the same of a PD, and a PayloadData Frame has no alert. -/
theorem pdIsAccepted : Obligations.PdIsAccepted := by
  intro f s hwf
  have hshows := fun rules => presentDatagram_showsOutcome rules (frameBytes Config.typePd f) s
  rw [decodeBytes_of_pd_wf f hwf] at hshows
  obtain ⟨hp, hv, hkind, hoff, hexp, hact, hframe, -⟩ := hshows defaultRules
  obtain ⟨-, hsatid, hts, hraw, hhex, hn, -, -, hres, hvkind, hpay, hpayhex, hpaylen, hnohk⟩ := hframe
  rw [frameBytes_length] at hn
  have halerts (rules : RuleTable) : (presentDatagram (frameBytes Config.typePd f) s).viewAlerts rules = some [] := by
    obtain ⟨-, -, -, -, -, -, -, ha⟩ := hshows rules
    exact ha
  exact ⟨_, exec_pd f s, hp, hv, hres, hkind, hoff, hexp, hact, hvkind, hsatid, hts, hn, hpay, hraw, hhex, hpayhex, hpaylen,
    hnohk, halerts⟩

/-- Settles O43: each failing operand is a failure of `decode_bytes` on the instruction's datagram. -/
theorem frameInstructionsRaiseTheirFailures : Obligations.FrameInstructionsRaiseTheirFailures := by
  intro f s
  refine ⟨fun hlen => ⟨⟨_, exec_hk f s, ?_⟩, ⟨_, exec_pd f s, ?_⟩⟩, fun hlen hchk => ⟨_, exec_hk f s, ?_⟩,
    fun hlen hchk => ⟨_, exec_pd f s, ?_⟩, fun hlen hchk hpay => ⟨_, exec_hk f s, ?_⟩⟩ <;>
    apply presentDatagram_showsFailure
  · exact decodeBytes_frameBytes_lengthMismatch Config.typeHk f hlen
  · exact decodeBytes_frameBytes_lengthMismatch Config.typePd f hlen
  · exact decodeBytes_frameBytes_crcMismatch Config.typeHk f hlen hchk
  · exact decodeBytes_frameBytes_crcMismatch Config.typePd f hlen hchk
  · exact decodeBytes_hk_truncated f hlen hchk hpay

/-- Settles O50: the step presents the datagram, of the table or not, and so does the DGRAM of its bytes. -/
theorem everyDatagramIsTaken : Obligations.EveryDatagramIsTaken := by
  intro rules s bs rest hport
  obtain ⟨-, -, -, -, -, -, -, hkeep, -⟩ := presentDatagram_spec bs (s.withPort rest)
  refine ⟨presentDatagram bs (s.withPort rest), ?_, hkeep, presentDatagram_showsOutcome rules bs _, fun d e => ?_⟩
  · rw [step_of_port_cons s _ rest hport, takeItem, takeDatagram_eq]
  · exact runProgram_dgram bs _ (s.withPort rest) (isDgram_of_bytes bs d e)

end Sys2Proof.Proofs
end

section
/-! SUPPORT. The Health Evaluator by its definitions: the selected field, the comparison, the conditions on a table, and the
alert of an entry (43_health_evaluator.md R191 to R200). -/

namespace Sys2Proof.Proofs

open Sys2Proof.Machine

-- ---- The selected field and the comparison ----

theorem fieldValue_bv (h : HkFields) : fieldValue h 0 = some (h.bv.toNat : Int) := rfl

theorem fieldValue_bt (h : HkFields) : fieldValue h 1 = some h.bt := rfl

theorem fieldValue_msi (h : HkFields) : fieldValue h 2 = some (h.msi.toNat : Int) := rfl

theorem fieldValue_ssr (h : HkFields) : fieldValue h 3 = some (h.ssr.toNat : Int) := rfl

/-- FSEL 4 to 7 names no field (R197). -/
theorem fieldValue_eq_none (h : HkFields) (fsel : BitVec 3) (hf : 4 ≤ fsel.toNat) : fieldValue h fsel = none := by
  unfold fieldValue
  split
  case h_5 => rfl
  all_goals omega

theorem thrValue_signed (e : RuleEntry) (hf : e.fsel = 1) : thrValue e = e.thr.toInt := if_pos hf

theorem thrValue_unsigned (e : RuleEntry) (hf : e.fsel ≠ 1) : thrValue e = e.thr.toNat := if_neg hf

/-- The operator codes 0 to 5 are the six comparisons of integers (R191). -/
theorem predHolds_iff (op : BitVec 3) (v t : Int) :
    (op = 0 → (predHolds op v t = true ↔ v > t)) ∧ (op = 1 → (predHolds op v t = true ↔ v < t)) ∧
    (op = 2 → (predHolds op v t = true ↔ v ≥ t)) ∧ (op = 3 → (predHolds op v t = true ↔ v ≤ t)) ∧
    (op = 4 → (predHolds op v t = true ↔ v = t)) ∧ (op = 5 → (predHolds op v t = true ↔ v ≠ t)) := by
  refine ⟨?_, ?_, ?_, ?_, ?_, ?_⟩ <;> (rintro rfl; exact decide_eq_true_iff)

theorem ruleFires_of_fieldValue_none (h : HkFields) (e : RuleEntry) (hv : fieldValue h e.fsel = none) :
    ruleFires h e = false := by
  rw [ruleFires, hv]

theorem ruleFires_of_fieldValue_some (h : HkFields) (e : RuleEntry) (v : Int) (hv : fieldValue h e.fsel = some v) :
    ruleFires h e = predHolds e.op v (thrValue e) := by
  rw [ruleFires, hv]

-- ---- The conditions on a table ----

/-- THR in the range of the selected field's type, field by field; `ssr_used_mb` takes every THR (R196). -/
theorem thrInRange_iff (e : RuleEntry) :
    thrInRange e = true ↔ (e.fsel = 0 → e.thr.toNat ≤ 65535) ∧ (e.fsel = 1 → -128 ≤ e.thr.toInt ∧ e.thr.toInt ≤ 127) ∧
      (e.fsel = 2 → e.thr.toNat ≤ 255) := by
  have hcode (c : BitVec 3) : e.fsel = c ↔ e.fsel.toNat = c.toNat := BitVec.toNat_inj.symm
  unfold thrInRange
  split
  case h_1 hf => simp [hcode, hf, thrValue_unsigned]
  case h_2 hf => simp [hcode, hf, thrValue_signed]
  case h_3 hf => simp [hcode, hf, thrValue_unsigned]
  case h_4 h0 h1 h2 =>
    simp only [hcode, true_iff]
    exact ⟨fun hf => (h0 hf).elim, fun hf => (h1 hf).elim, fun hf => (h2 hf).elim⟩

theorem entryWf_iff (e : RuleEntry) :
    entryWf e = true ↔ (e.level = 1 ∨ e.level = 2) ∧ e.op.toNat ≤ 5 ∧
      (e.fsel = 0 → e.thr.toNat ≤ 65535) ∧ (e.fsel = 1 → -128 ≤ e.thr.toInt ∧ e.thr.toInt ≤ 127) ∧
      (e.fsel = 2 → e.thr.toNat ≤ 255) := by
  rw [← thrInRange_iff]
  simp [entryWf, levelRed, levelYellow, and_assoc]

theorem redBeforeYellow_iff_pairwise (es : List RuleEntry) :
    redBeforeYellow es = true ↔ es.Pairwise (fun e d => e.level = 2 → d.level ≠ 1) := by
  induction es with
  | nil => simp [redBeforeYellow]
  | cons e es ih =>
    have hhead : (e.level != levelYellow || es.all (fun d => d.level != levelRed)) = true ↔
        ∀ d ∈ es, e.level = 2 → d.level ≠ 1 := by
      simp only [levelYellow, levelRed, Bool.or_eq_true, bne_iff_ne, ne_eq, List.all_eq_true, ← imp_iff_not_or]
      exact ⟨fun h d hd hyellow => h hyellow d hd, fun h hyellow d hd => h d hd hyellow⟩
    rw [redBeforeYellow, Bool.and_eq_true, hhead, ih, List.pairwise_cons]

/-- The order of a table by the positions of its entries. -/
theorem redBeforeYellow_iff_getElem (es : List RuleEntry) :
    redBeforeYellow es = true ↔
      ∀ i j (hi : i < es.length) (hj : j < es.length), es[i].level = 2 → es[j].level = 1 → j < i := by
  rw [redBeforeYellow_iff_pairwise, List.pairwise_iff_getElem]
  constructor
  · intro hpair i j hi hj hyellow hred
    rcases lt_trichotomy i j with hlt | rfl | hgt
    · exact absurd hred (hpair i j hi hj hlt hyellow)
    · exact absurd (hyellow.symm.trans hred) (by decide)
    · exact hgt
  · exact fun horder i j hi hj hlt hyellow hred => (horder i j hi hj hyellow hred).asymm hlt

theorem buildRules_eq_some_iff (es : List RuleEntry) (rules : RuleTable) :
    buildRules es = some rules ↔ rules.entries = es := by
  obtain ⟨entries, hwf⟩ := rules
  rw [buildRules]
  constructor
  · intro h
    split at h
    · cases h; rfl
    · cases h
  · rintro rfl
    exact dif_pos hwf

theorem buildRules_accepts_iff (es : List RuleEntry) :
    (∃ rules, buildRules es = some rules ∧ rules.entries = es) ↔ rulesWf es = true := by
  constructor
  · rintro ⟨rules, -, rfl⟩
    exact rules.wf
  · exact fun hwf => ⟨⟨es, hwf⟩, (buildRules_eq_some_iff es _).mpr rfl, rfl⟩

theorem rulesWf_iff (es : List RuleEntry) :
    rulesWf es = true ↔ (∀ e ∈ es, entryWf e = true) ∧ redBeforeYellow es = true := by
  rw [rulesWf, Bool.and_eq_true, List.all_eq_true]

/-- Every entry of a table that was built is RED or YELLOW. -/
theorem level_of_mem_entries (rules : RuleTable) (e : RuleEntry) (he : e ∈ rules.entries) : e.level = 1 ∨ e.level = 2 := by
  obtain ⟨hentries, -⟩ := (rulesWf_iff rules.entries).mp rules.wf
  obtain ⟨hlevel, -⟩ := (entryWf_iff e).mp (hentries e he)
  exact hlevel

/-- From the first YELLOW entry on, a table that was built has YELLOW entries only. -/
theorem entries_pairwise_yellow (rules : RuleTable) :
    rules.entries.Pairwise (fun e d => e.level = 2 → d.level = 2) := by
  obtain ⟨-, horder⟩ := (rulesWf_iff rules.entries).mp rules.wf
  refine ((redBeforeYellow_iff_pairwise rules.entries).mp horder).imp_of_mem fun _ hd hnotRed hyellow => ?_
  exact (level_of_mem_entries rules _ hd).resolve_left (hnotRed hyellow)

-- ---- The alert of an entry ----

/-- VALUE of an unsigned field is the field's bits, widened. -/
theorem ofInt_toNat_eq_setWidth {w : Nat} (x : BitVec w) : BitVec.ofInt 32 (x.toNat : Int) = x.setWidth 32 := by
  rw [BitVec.ofInt_natCast, BitVec.ofNat_toNat]

/-- VALUE by the entry's selector (R198, R200). -/
theorem alertOf_value (satid : BitVec 16) (ts : BitVec 32) (h : HkFields) (e : RuleEntry) :
    (e.fsel = 0 → (alertOf satid ts h e).value = h.bv.setWidth 32) ∧
    (e.fsel = 1 → (alertOf satid ts h e).value = BitVec.ofInt 32 h.bt) ∧
    (e.fsel = 2 → (alertOf satid ts h e).value = h.msi.setWidth 32) ∧
    (e.fsel = 3 → (alertOf satid ts h e).value = h.ssr) := by
  refine ⟨fun hf => ?_, fun hf => ?_, fun hf => ?_, fun hf => ?_⟩ <;> rw [alertOf, hf]
  · exact ofInt_toNat_eq_setWidth h.bv
  · rfl
  · exact ofInt_toNat_eq_setWidth h.msi
  · exact (ofInt_toNat_eq_setWidth h.ssr).trans (BitVec.setWidth_eq h.ssr)

/-- Every alert is that of an entry of the table that fires. -/
theorem mem_evaluateHk (rules : RuleTable) (satid : BitVec 16) (ts : BitVec 32) (h : HkFields) (a : Alert) :
    a ∈ evaluateHk rules satid ts h ↔ ∃ e ∈ rules.entries, ruleFires h e = true ∧ alertOf satid ts h e = a := by
  simp [evaluateHk, and_assoc]

/-- What the alerts take from their entries is taken in rule order. -/
theorem map_evaluateHk {α : Type} (f : Alert → α) (rules : RuleTable) (satid : BitVec 16) (ts : BitVec 32) (h : HkFields) :
    (evaluateHk rules satid ts h).map f = (rules.entries.filter (ruleFires h)).map (fun e => f (alertOf satid ts h e)) := by
  rw [evaluateHk, List.map_map]
  rfl

/-- No RED alert stands after a YELLOW one (R196, R250). -/
theorem evaluateHk_pairwise_yellow (rules : RuleTable) (satid : BitVec 16) (ts : BitVec 32) (h : HkFields) :
    (evaluateHk rules satid ts h).Pairwise (fun a b => a.level = 2 → b.level = 2) :=
  List.pairwise_map.mpr ((entries_pairwise_yellow rules).filter (ruleFires h))

-- ---- The default table ----

/-- The RED rule fires on `msi_temperature_c > 40` (R194). -/
theorem ruleFires_redRule (h : HkFields) : ruleFires h redRule = decide (40 < h.msi.toNat) := by
  have hthr : thrValue redRule = 40 := by decide
  obtain ⟨hgt, -⟩ := predHolds_iff redRule.op h.msi.toNat 40
  rw [ruleFires_of_fieldValue_some h redRule _ (fieldValue_msi h), hthr, Bool.eq_iff_iff, hgt rfl, decide_eq_true_iff]
  omega

/-- The YELLOW rule fires on `battery_voltage_mv < 12000` (R195). -/
theorem ruleFires_yellowRule (h : HkFields) : ruleFires h yellowRule = decide (h.bv.toNat < 12000) := by
  have hthr : thrValue yellowRule = 12000 := by decide
  obtain ⟨-, hlt, -⟩ := predHolds_iff yellowRule.op h.bv.toNat 12000
  rw [ruleFires_of_fieldValue_some h yellowRule _ (fieldValue_bv h), hthr, Bool.eq_iff_iff, hlt rfl, decide_eq_true_iff]
  omega

theorem alertOf_redRule (satid : BitVec 16) (ts : BitVec 32) (h : HkFields) :
    alertOf satid ts h redRule = ⟨1, 2, h.msi.setWidth 32, 0, satid, ts, ts⟩ := by
  rw [← ofInt_toNat_eq_setWidth]
  rfl

theorem alertOf_yellowRule (satid : BitVec 16) (ts : BitVec 32) (h : HkFields) :
    alertOf satid ts h yellowRule = ⟨2, 0, h.bv.setWidth 32, 1, satid, ts, ts⟩ := by
  rw [← ofInt_toNat_eq_setWidth]
  rfl

end Sys2Proof.Proofs
end

section
/-! The statements about the Health Evaluator, settled. -/

namespace Sys2Proof.Proofs

open Sys2Proof.Machine

/-- Settles O25: entry 0 by the RED condition, then entry 1 by the YELLOW one. -/
theorem defaultRulesGiveFourOutcomes : Obligations.DefaultRulesGiveFourOutcomes := by
  intro satid ts h
  rw [← alertOf_redRule, ← alertOf_yellowRule]
  have hentries : defaultRules.entries = [redRule, yellowRule] := rfl
  rw [evaluateHk, hentries, List.filter_cons, List.filter_singleton, ruleFires_redRule, ruleFires_yellowRule]
  by_cases hred : 40 < h.msi.toNat <;> by_cases hyellow : h.bv.toNat < 12000 <;> simp [hred, hyellow]

/-- Settles O26: an absent field never fires; each selector fixes the two integers that the operator compares. -/
theorem ruleFiresByItsComparison : Obligations.RuleFiresByItsComparison := by
  intro h e
  refine ⟨fun hf => ruleFires_of_fieldValue_none h e (fieldValue_eq_none h e.fsel hf), fun v t hcase => ?_⟩
  have hoperands : fieldValue h e.fsel = some v ∧ thrValue e = t := by
    rcases hcase with ⟨hf, rfl, rfl⟩ | ⟨hf, rfl, rfl⟩ | ⟨hf, rfl, rfl⟩ | ⟨hf, rfl, rfl⟩
    · exact ⟨hf ▸ fieldValue_bv h, thrValue_unsigned e (by simp [hf])⟩
    · exact ⟨hf ▸ fieldValue_bt h, thrValue_signed e hf⟩
    · exact ⟨hf ▸ fieldValue_msi h, thrValue_unsigned e (by simp [hf])⟩
    · exact ⟨hf ▸ fieldValue_ssr h, thrValue_unsigned e (by simp [hf])⟩
  obtain ⟨hv, ht⟩ := hoperands
  rw [ruleFires_of_fieldValue_some h e v hv, ht]
  exact predHolds_iff e.op v t

/-- Settles O27: a table is built when `rulesWf` holds of it, whose two parts are the conditions on the entries and their
order. -/
theorem onlyWellFormedTablesAreBuilt : Obligations.OnlyWellFormedTablesAreBuilt := by
  refine ⟨fun es => ?_, fun es rules => (buildRules_eq_some_iff es rules).mp, (buildRules_eq_some_iff _ _).mpr rfl⟩
  rw [buildRules_accepts_iff, rulesWf_iff, redBeforeYellow_iff_getElem]
  simp only [entryWf_iff]

/-- Settles O28: filtering and mapping keep the order of the table, where no RED stands after a YELLOW. -/
theorem redAlertsComeFirst : Obligations.RedAlertsComeFirst := by
  intro rules satid ts h
  refine ⟨evaluateHk_pairwise_yellow rules satid ts h, fun a ha => ?_, evaluateHk_length rules satid ts h,
    map_evaluateHk _ rules satid ts h⟩
  obtain ⟨e, he, hfires, rfl⟩ := (mem_evaluateHk rules satid ts h a).mp ha
  exact ⟨level_of_mem_entries rules e he, rfl, rfl, rfl, e, he, hfires, rfl, rfl, rfl, alertOf_value satid ts h e⟩

end Sys2Proof.Proofs
end

section
/-! SUPPORT. The laws of START, BYTE and END over the registers and FB (44_stream_commands.md R212 to R217). -/

namespace Sys2Proof.Proofs

open Sys2Proof.Machine Sys2Proof.Safety Sys2Proof.Laws

-- BYTE (R213, 20_memory.md R61).

theorem receiveByte_fbByte_same (s : State) (b : Byte) (h : s.count.toNat < 255) :
    (s.receiveByte b).fbByte s.count.toNat = b :=
  fbByte_of_read _ _ _ (storeByte_read_same s b h)

theorem receiveByte_fbByte_other (s : State) (b : Byte) (a : Nat) (h : s.count.toNat < 255 → a ≠ s.count.toNat) :
    (s.receiveByte b).fbByte a = s.fbByte a :=
  fbByte_congr s _ a (storeByte_read_other s b a h) rfl

/-- The saturating counter on numbers (10_state.md R24). -/
theorem receiveByte_count_toNat (s : State) (b : Byte) :
    (s.receiveByte b).count.toNat = if s.count.toNat < 65535 then s.count.toNat + 1 else 65535 := by
  rw [receiveByte_count, satInc_toNat]
  split_ifs with h <;> omega

theorem byteCommand_perr (b : Byte) (s : State) : (byteCommand b s).perr = (s.perr || s.phase == .idle) := by
  cases hp : s.phase with
  | idle => rw [byteCommand_idle b s hp, flagMisuse_perr]; exact (Bool.or_true _).symm
  | recv => rw [byteCommand_recv b s hp, receiveByte_perr]; exact (Bool.or_false _).symm

/-- A BYTE gives no outcome and takes none away. -/
theorem byteCommand_rvalid (b : Byte) (s : State) : (byteCommand b s).rvalid = s.rvalid := by
  cases hp : s.phase with
  | idle => rw [byteCommand_idle b s hp, flagMisuse_rvalid]
  | recv => rw [byteCommand_recv b s hp, receiveByte_rvalid]

-- END (R214).

theorem endCommand_perr (s : State) : (endCommand s).perr = (s.perr || s.phase == .idle) := by
  cases hp : s.phase with
  | idle => rw [endCommand_idle s hp, flagMisuse_perr]; exact (Bool.or_true _).symm
  | recv =>
    obtain ⟨-, -, -, -, -, -, -, hperr, -⟩ := settle_frame s (verdict s)
    rw [endCommand_recv s hp, hperr]
    exact (Bool.or_false _).symm

/-- END closes the datagram; RVALID is 1 after it, but for an END out of place. -/
theorem endCommand_done (s : State) : (endCommand s).phase = .idle ∧
    ((endCommand s).rvalid = true ∨ s.phase = .idle ∧ (endCommand s).rvalid = s.rvalid) := by
  cases hp : s.phase with
  | idle =>
    rw [endCommand_idle s hp]
    exact ⟨hp, .inr ⟨rfl, rfl⟩⟩
  | recv =>
    obtain ⟨hphase, hv, -⟩ := settle_frame s (verdict s)
    rw [endCommand_recv s hp]
    exact ⟨hphase, .inl hv⟩

/-- The failures END can raise (R214). -/
def endFailureKinds : List FailureKind :=
  [.emptyInput, .tooShort, .syncMismatch, .lengthMismatch, .crcMismatch, .truncatedPayload, .unknownType]

theorem verdictByType_kind (s : State) (x : Failure) (h : verdictByType s = .fail x) : x.kind ∈ endFailureKinds := by
  unfold verdictByType verdictHk verdictPd at h
  split_ifs at h <;> cases h <;> simp [endFailureKinds]

/-- END raises none of the failures of TF, and not DeclaredLengthBelowMinimum either: a declared length that is N is at least 12
(42_frame_decoder.md R177). -/
theorem verdict_kind (s : State) (x : Failure) (h : verdict s = .fail x) : x.kind ∈ endFailureKinds := by
  unfold verdict at h
  dsimp only at h
  split_ifs at h with hzero hmin hsync hlen hdecl hchk
  · cases h; simp [endFailureKinds]
  · cases h; simp [endFailureKinds]
  · cases h; simp [endFailureKinds]
  · cases h; simp [endFailureKinds]
  · exact absurd (not_not.mp hlen ▸ hdecl) hmin
  · cases h; simp [endFailureKinds]
  · exact verdictByType_kind s x h

/-- What END's outcome leaves in the status registers (60_exceptions.md R240, R244). -/
theorem settle_status (s : State) (v : Verdict) : (s.settle v).res ≠ .none ∧
    ((s.settle v).res ≠ .fail →
      (s.settle v).fkind = 0 ∧ (s.settle v).ctxOff = 0 ∧ (s.settle v).ctxExp = 0 ∧ (s.settle v).ctxAct = 0) ∧
    ((s.settle v).res = .fail → ∃ x, v = .fail x ∧ (s.settle v).fkind = kindCode x.kind) := by
  cases v with
  | okHk => exact ⟨nofun, fun _ => ⟨rfl, rfl, rfl, rfl⟩, nofun⟩
  | okPd => exact ⟨nofun, fun _ => ⟨rfl, rfl, rfl, rfl⟩, nofun⟩
  | fail x => exact ⟨nofun, fun hne => absurd rfl hne, fun _ => ⟨x, rfl, rfl⟩⟩

-- Misuse (R217).

theorem presentDatagram_perr (bs : List Byte) (s : State) :
    (presentDatagram bs s).perr = (s.perr || s.phase == .recv) := by
  obtain ⟨-, -, -, hperr, -⟩ := presentDatagram_spec bs s
  exact hperr

/-- PERR after an instruction: START is out of place in RECV, BYTE and END in IDLE, and a FRAME instruction begins with
START. -/
theorem exec_perr (i : Instr) (s t : State) (h : exec i s = .next t) : t.perr = (s.perr || !allowed s.phase i) := by
  cases i with
  | nop d => cases h; cases s.phase <;> exact (Bool.or_false _).symm
  | start d => cases h; rw [startCommand_perr]; cases s.phase <;> rfl
  | byte b => cases h; rw [byteCommand_perr]; cases s.phase <;> rfl
  | end_ d => cases h; rw [endCommand_perr]; cases s.phase <;> rfl
  | hk f => cases h; rw [presentDatagram_perr]; cases s.phase <;> rfl
  | pd f => cases h; rw [presentDatagram_perr]; cases s.phase <;> rfl

end Sys2Proof.Proofs
end

section
/-! SUPPORT. What the bytes of a datagram determine: the registers and FB in mid-datagram and after it, whatever the state before
(44_stream_commands.md R216, R219, R222). -/

namespace Sys2Proof.Proofs

open Sys2Proof.Machine Sys2Proof.Safety Sys2Proof.Laws

/-- START and the bytes of a datagram, with any number of NOPs mixed in. -/
theorem runProgram_opens (bs : List Byte) (prog : List Instr) (s : State) (h : OpensDgram bs prog) :
    runProgram prog s = .next (byteCommands bs (startCommand s)) := by
  obtain ⟨d, h⟩ := h
  have hbytes := runProgram_bytes bs [] (startCommand s)
  rw [List.append_nil] at hbytes
  rw [runProgram_filter, h, runProgram, exec_start]
  exact hbytes

theorem opensDgram_of_bytes (bs : List Byte) (d : Byte) : OpensDgram bs (.start d :: bs.map Instr.byte) := by
  refine ⟨d, List.filter_eq_self.mpr fun i hi => ?_⟩
  rcases List.mem_cons.mp hi with rfl | hi
  · rfl
  · obtain ⟨b, -, rfl⟩ := List.mem_map.mp hi
    rfl

/-- The open datagram after START and its bytes: the registers hold them, with no outcome (R216). -/
theorem openedDatagram_holds (bs : List Byte) (s : State) : (byteCommands bs (startCommand s)).phase = .recv ∧
    HoldsBytes (byteCommands bs (startCommand s)) bs ∧ NoOutcome (byteCommands bs (startCommand s)) := by
  obtain ⟨hh, hn⟩ := startCommand_holds s
  obtain ⟨hp, hbytes, hno, -⟩ := byteCommands_holds bs (startCommand s) [] rfl hh hn
  exact ⟨hp, hbytes, hno⟩

/-- The checksum in mid-datagram, with the case of fewer than two bytes apart (R216). -/
theorem crc_of_holds (s : State) (bs : List Byte) (h : HoldsBytes s bs) :
    s.crc = if 2 ≤ bs.length then checksum (bs.take (bs.length - 2)) else 0x0000 := by
  obtain ⟨-, hcrc, -⟩ := h
  rw [hcrc]
  split_ifs with h2
  · rfl
  · rw [Nat.sub_eq_zero_of_le (by omega), List.take_zero]
    rfl

/-- The data registers are determined by the bytes they hold. -/
theorem dataRegisters_eq_of_holds (s t : State) (bs : List Byte) (hs : HoldsBytes s bs) (ht : HoldsBytes t bs) :
    s.count = t.count ∧ s.crc = t.crc ∧ s.t1 = t.t1 ∧ s.t0 = t.t0 := by
  obtain ⟨hcount, hcrc, h0, h1, -⟩ := hs
  obtain ⟨hcount', hcrc', h0', h1', -⟩ := ht
  exact ⟨BitVec.eq_of_toNat_eq (hcount.trans hcount'.symm), hcrc.trans hcrc'.symm, h1.trans h1'.symm, h0.trans h0'.symm⟩

/-- The status registers are determined by the outcome they hold. -/
theorem statusRegisters_eq_of_hasOutcome (s t : State) (r : DecodeResult) (hs : HasOutcome s r) (ht : HasOutcome t r) :
    s.rvalid = t.rvalid ∧ s.res = t.res ∧ s.fkind = t.fkind ∧ s.ctxOff = t.ctxOff ∧ s.ctxExp = t.ctxExp ∧
    s.ctxAct = t.ctxAct := by
  cases r <;>
  · obtain ⟨hv, hkind, hoff, hexp, hact, hres⟩ := hs
    obtain ⟨hv', hkind', hoff', hexp', hact', hres'⟩ := ht
    exact ⟨hv.trans hv'.symm, hres.trans hres'.symm, hkind.trans hkind'.symm, hoff.trans hoff'.symm,
      hexp.trans hexp'.symm, hact.trans hact'.symm⟩

/-- T1 and T0 of a state that holds a whole frame are its CHK (30_encoding.md R81). -/
theorem trailer_of_holds_frameBytes (s : State) (type : Byte) (f : FrameOperands) (h : HoldsBytes s (frameBytes type f)) :
    s.t1 = hiByte f.chk ∧ s.t0 = loByte f.chk := by
  obtain ⟨-, -, h0, h1, -⟩ := h
  have hmin : 12 ≤ (frameBytes type f).length := by simp
  have hlast : (frameBytes type f).length - 1 = (frameBytes type f).length - 2 + 1 := by omega
  rw [if_pos (by omega)] at h0 h1
  rw [h0, h1, hlast, ← frameBytes_chk type f, be16At, hiByte_be16, loByte_be16]
  exact ⟨rfl, rfl⟩

end Sys2Proof.Proofs
end

section
/-! SUPPORT. The inputs that take an END, and RVALID around them (44_stream_commands.md R221). -/

namespace Sys2Proof.Proofs

open Sys2Proof.Machine Sys2Proof.Safety Sys2Proof.Laws

/-- A command word takes an END exactly when it is one: no command word is a FRAME instruction (30_encoding.md R91). -/
theorem takesEnd_decodeWord_iff (w : BitVec 10) : takesEnd (decodeWord w) = true ↔ ∃ d, decodeWord w = .end_ d := by
  rcases cmd_cases (w.extractLsb' 8 2) with h | h | h | h
  · simp [decodeWord_nop w h, takesEnd]
  · simp [decodeWord_start w h, takesEnd]
  · simp [decodeWord_byte w h, takesEnd]
  · simp [decodeWord_end w h, takesEnd]

theorem inputTakesEnd_text_of_failed (t : Text) (x : Failure) (h : textToBytes t = .failed x) :
    inputTakesEnd (.text t) = false := by
  rw [inputTakesEnd, h]

theorem inputTakesEnd_text_of_bytes (t u : Text) (bs : List Byte) (h : textToBytes t = .bytes u bs) :
    inputTakesEnd (.text t) = true := by
  rw [inputTakesEnd, h]

/-- The inputs that take an END: the command word, a datagram, a text that TF hands on. -/
theorem inputTakesEnd_iff (x : PortItem) : inputTakesEnd x = true ↔ (∃ w d, x = .word w ∧ decodeWord w = .end_ d) ∨
    (∃ bs, x = .datagram bs) ∨ ∃ txt u bs, x = .text txt ∧ textToBytes txt = .bytes u bs := by
  cases x with
  | rst => simp [inputTakesEnd]
  | word w => simp [inputTakesEnd, takesEnd_decodeWord_iff]
  | datagram bs => simp [inputTakesEnd]
  | text t =>
    cases h : textToBytes t with
    | failed f => simp [inputTakesEnd_text_of_failed t f h, h]
    | bytes u bs => simp [inputTakesEnd_text_of_bytes t u bs h, h]

theorem donePulse_of_port_nil (s : State) (h : s.port = []) : s.donePulse = false := by
  rw [State.donePulse, h]

theorem donePulse_of_port_cons (s : State) (x : PortItem) (rest : List PortItem) (h : s.port = x :: rest) :
    s.donePulse = inputTakesEnd x := by
  rw [State.donePulse, h]

/-- A whole datagram is closed with an outcome. -/
theorem presentDatagram_done (bs : List Byte) (s : State) :
    (presentDatagram bs s).phase = .idle ∧ (presentDatagram bs s).rvalid = true := by
  obtain ⟨-, ho, hp, -⟩ := presentDatagram_spec bs s
  exact ⟨hp, (status_of_hasOutcome _ _ ho).1⟩

/-- An input that takes an END leaves no datagram open, and RVALID 1 but for an END out of place. -/
theorem takeItem_of_takesEnd (x : PortItem) (s t : State) (hx : inputTakesEnd x = true) (h : takeItem x s = .next t) :
    t.phase = .idle ∧
      (t.rvalid = true ∨ ∃ w d, x = .word w ∧ decodeWord w = .end_ d ∧ s.phase = .idle ∧ t.rvalid = s.rvalid) := by
  rcases (inputTakesEnd_iff x).mp hx with ⟨w, d, rfl, hw⟩ | ⟨bs, rfl⟩ | ⟨txt, u, bs, rfl, htext⟩
  · rw [takeItem, hw, exec_end] at h
    cases h
    obtain ⟨hp, hv | ⟨hidle, hv⟩⟩ := endCommand_done s
    · exact ⟨hp, .inl hv⟩
    · exact ⟨hp, .inr ⟨w, d, rfl, hw, hidle, hv⟩⟩
  · rw [takeItem, takeDatagram_eq] at h
    cases h
    obtain ⟨hp, hv⟩ := presentDatagram_done bs s
    exact ⟨hp, .inl hv⟩
  · rw [takeItem, takeText_of_bytes txt u bs s htext] at h
    cases h
    obtain ⟨hp, hv⟩ := presentDatagram_done bs s
    exact ⟨hp, .inl hv⟩

/-- An instruction that takes no END leaves RVALID as it was, or 0 after START. -/
theorem exec_rvalid_of_no_end (i : Instr) (s t : State) (hi : takesEnd i = false) (h : exec i s = .next t)
    (hs : s.rvalid = false) : t.rvalid = false := by
  cases i with
  | nop d => cases h; exact hs
  | start d => cases h; rfl
  | byte b => cases h; rw [byteCommand_rvalid, hs]
  | end_ d => cases hi
  | hk f => cases hi
  | pd f => cases hi

/-- RVALID does not go from 0 to 1 on an input that takes no END. -/
theorem takeItem_rvalid_of_no_end (x : PortItem) (s t : State) (hx : inputTakesEnd x = false) (h : takeItem x s = .next t)
    (hs : s.rvalid = false) : t.rvalid = false := by
  cases x with
  | rst => cases h; rfl
  | word w => exact exec_rvalid_of_no_end _ s t hx h hs
  | datagram bs => cases hx
  | text txt =>
    cases htext : textToBytes txt with
    | failed f =>
      rw [takeItem, takeText_of_failed txt f s htext] at h
      cases h
      exact hs
    | bytes u bs =>
      rw [inputTakesEnd_text_of_bytes txt u bs htext] at hx
      cases hx

end Sys2Proof.Proofs
end

section
/-! The statements about the stream commands, settled. -/

namespace Sys2Proof.Proofs

open Sys2Proof.Machine Sys2Proof.Safety Sys2Proof.Laws

/-- Settles O32: in RECV the step is `receiveByte`, whose laws give each register and each byte of FB. -/
theorem byteTakesOneByte : Obligations.ByteTakesOneByte := by
  refine ⟨fun b s hp => ⟨s.receiveByte b, ?_, receiveByte_count_toNat s b, rfl, rfl, rfl, receiveByte_fbByte_same s b,
    receiveByte_fbByte_other s b, hp, rfl, rfl, rfl, rfl, rfl, rfl, rfl, rfl, rfl, rfl, rfl⟩, fun b s hp => ?_⟩
  · rw [exec_byte, byteCommand_recv b s hp]
  · rw [exec_byte, byteCommand_idle b s hp]
    rfl

/-- Settles O33: in RECV the step settles the verdict, and settling each branch of the verdict's chain of checks writes the
registers of that branch. -/
theorem endDecodesTheDatagram : Obligations.EndDecodesTheDatagram := by
  refine ⟨fun d s hp => ?_, fun d s hp => ?_⟩
  · rw [exec_end, endCommand_recv s hp, verdict]
    simp only [verdictByType, verdictHk, verdictPd, apply_ite s.settle]
    rfl
  · rw [exec_end, endCommand_idle s hp]
    rfl

/-- Settles O34: END settles a verdict, whatever it is, and settling leaves the data registers alone. -/
theorem endLeavesTheDatagramRegisters : Obligations.EndLeavesTheDatagramRegisters := by
  intro d s hp
  obtain ⟨hphase, hv, hcount, hcrc, h1, h0, hfb, hperr, hepoch, hraw, htf, hport⟩ := settle_frame s (verdict s)
  obtain ⟨hres, hok, hfail⟩ := settle_status s (verdict s)
  refine ⟨s.settle (verdict s), by rw [exec_end, endCommand_recv s hp], hphase, hv, hres, hok, fun hf => ?_, hcount, hcrc, h1,
    h0, hperr, fun a => fbByte_congr s _ a (by rw [hfb]) hepoch, hfb, hepoch, hraw, htf, hport⟩
  obtain ⟨x, hx, hkind⟩ := hfail hf
  rw [hkind]
  exact List.mem_map_of_mem (f := kindCode) (verdict_kind s x hx)

/-- Settles O35: by the instruction and the STATE; RESET is a step of its own. -/
theorem perrRecordsExactlyMisuse : Obligations.PerrRecordsExactlyMisuse :=
  ⟨exec_perr, fun s rest hp => ⟨(s.withPort rest).resetEvent, step_of_port_cons s .rst rest hp, rfl⟩⟩

/-- Settles O36: the open datagram holds its bytes. -/
theorem receivedBytesDetermineTheRegisters : Obligations.ReceivedBytesDetermineTheRegisters := by
  intro s bs prog hprog hlen
  obtain ⟨hp, hh, hv, hres, -⟩ := openedDatagram_holds bs s
  have hcrc := crc_of_holds _ bs hh
  have ⟨hcount, _, h0, h1, _⟩ := hh
  refine ⟨_, runProgram_opens bs prog s hprog, hp, by omega, hcrc, h0, h1, fun i hi => ?_, hv, hres⟩
  exact fbByte_of_holds _ bs hh i (by omega) (by omega)

/-- Settles O37: CRC holds the checksum of all but the last two bytes, and those are the fillers. -/
theorem twoFillersExposeTheChecksum : Obligations.TwoFillersExposeTheChecksum := by
  intro s bs x y d
  obtain ⟨-, ⟨-, hcrc, -⟩, -⟩ := openedDatagram_holds (bs ++ [x, y]) s
  refine ⟨_, runProgram_opens _ _ s (opensDgram_of_bytes (bs ++ [x, y]) d), hcrc.trans ?_⟩
  rw [List.take_left' (by simp)]

/-- Settles O38: the program is one whole datagram, which shows the outcome of `decode_bytes`. -/
theorem dgramAgreesWithDecodeBytes : Obligations.DgramAgreesWithDecodeBytes := by
  intro rules s bs prog hprog
  refine ⟨_, runProgram_dgram bs prog s hprog, (presentDatagram_done bs s).2, presentDatagram_showsOutcome rules bs s, ?_⟩
  rw [presentDatagram_perr]
  cases s.phase with
  | idle => exact Bool.or_false _
  | recv => exact Bool.or_true _

/-- Settles O39: both states hold the same bytes and the same outcome, which determine the registers. -/
theorem dgramIsIndependentOfHistory : Obligations.DgramIsIndependentOfHistory := by
  intro s s' bs prog prog' hprog hprog'
  obtain ⟨hh, ho, hp, -, hraw, -⟩ := presentDatagram_spec bs s
  obtain ⟨hh', ho', hp', -, hraw', -⟩ := presentDatagram_spec bs s'
  obtain ⟨hcount, hcrc, h1, h0⟩ := dataRegisters_eq_of_holds _ _ bs hh hh'
  obtain ⟨hv, hres, hkind, hoff, hexp, hact⟩ := statusRegisters_eq_of_hasOutcome _ _ _ ho ho'
  refine ⟨_, _, runProgram_dgram bs prog s hprog, runProgram_dgram bs prog' s' hprog', hp.trans hp'.symm, hcount, hcrc, h1, h0,
    hv, hres, hkind, hoff, hexp, hact, hraw.trans hraw'.symm, fun a ha h255 => ?_⟩
  rw [fbByte_of_holds _ bs hh a ha h255, fbByte_of_holds _ bs hh' a ha h255]

/-- Settles O40: HK and PD present their datagram. -/
theorem frameInstructionsShowTheirOutcome : Obligations.FrameInstructionsShowTheirOutcome :=
  ⟨fun rules f s => ⟨_, exec_hk f s, presentDatagram_showsOutcome rules _ s⟩,
    fun rules f s => ⟨_, exec_pd f s, presentDatagram_showsOutcome rules _ s⟩⟩

/-- Settles O44: the state holds the bytes of the frame, whose fields stand at their offsets; the rest of FB stays. -/
theorem frameInstructionsStoreTheirDatagram : Obligations.FrameInstructionsStoreTheirDatagram := by
  intro f s type i hi
  have hexec : exec i s = .next (presentDatagram (frameBytes type f) s) := by
    rcases hi with ⟨rfl, rfl⟩ | ⟨rfl, rfl⟩
    · exact exec_hk f s
    · exact exec_pd f s
  obtain ⟨hh, -, -, -, -, hepoch, htf, hport, hother, -⟩ := presentDatagram_spec (frameBytes type f) s
  obtain ⟨h1, h0⟩ := trailer_of_holds_frameBytes _ type f hh
  have ⟨hcount, hcrc, _⟩ := hh
  rw [frameBytes_length] at hcount
  rw [frameBytes_take] at hcrc
  exact ⟨_, hexec, fbByte_of_holds _ _ hh, fun a ha => fbByte_congr s _ a (hother a ha) hepoch, hcount, hcrc, h1, h0, hepoch,
    htf, hport⟩

/-- Settles O30, by NOP's arm. -/
theorem nopChangesNothing : Obligations.NopChangesNothing :=
  exec_nop

/-- Settles O31: START writes RES NONE and RVALID 0, and with these no view has a value. -/
theorem startOpensADatagram : Obligations.StartOpensADatagram := by
  intro d s
  have hk : (startCommand s).res ≠ .okHk := nofun
  have hpd : (startCommand s).res ≠ .okPd := nofun
  refine ⟨startCommand s, exec_start d s, rfl, rfl, rfl, rfl, rfl, rfl, rfl, rfl, rfl, rfl, rfl, ?_, rfl, fun _ => rfl, rfl, rfl,
    rfl, rfl, noFrameViews_of_hasFrame_false _ (hasFrame_eq_false _ hk hpd), noHkViews_of_res_ne _ hk,
    noPdViews_of_res_ne _ hpd, noAlertViews_of_rvalid_false _ rfl⟩
  rw [startCommand_perr]
  cases s.phase with
  | idle => exact Bool.or_false _
  | recv => exact Bool.or_true _

/-- Settles O48: `done` pulses on the inputs that take an END; what these do to STATE and RVALID, and what the others cannot. -/
theorem doneTellsWhatRvalidTells : Obligations.DoneTellsWhatRvalidTells := by
  refine ⟨donePulse_of_port_nil, fun s x rest hp => ?_, fun s t hstep => ?_⟩
  · rw [donePulse_of_port_cons s x rest hp]
    exact inputTakesEnd_iff x
  cases hp : s.port with
  | nil =>
    rw [step_of_port_nil s hp] at hstep
    cases hstep
    rw [donePulse_of_port_nil s hp]
    exact ⟨nofun, fun hs ht => hs.symm.trans ht⟩
  | cons x rest =>
    rw [step_of_port_cons s x rest hp] at hstep
    rw [donePulse_of_port_cons s x rest hp]
    refine ⟨fun hx => ?_, fun hs ht => ?_⟩
    · obtain ⟨hidle, hv | ⟨w, d, rfl, hw⟩⟩ := takeItem_of_takesEnd x (s.withPort rest) t hx hstep
      · exact ⟨hidle, .inl hv⟩
      · exact ⟨hidle, .inr ⟨w, d, rest, rfl, hw⟩⟩
    · by_contra hx
      have hfalse := takeItem_rvalid_of_no_end x (s.withPort rest) t (Bool.eq_false_iff.mpr hx) hstep hs
      exact Bool.eq_false_iff.mp hfalse ht

/-- Settles O49: only command words and datagrams decode to an instruction, and taking either runs it. -/
theorem stepRunsTheDecodedInstruction : Obligations.StepRunsTheDecodedInstruction := by
  intro s x rest i hp hi
  rw [step_of_port_cons s x rest hp]
  cases x with
  | rst => cases hi
  | word w => cases hi; rfl
  | datagram bs =>
    have hframe : decodeFrame bs = .instr i := hi
    rw [takeItem, takeDatagram, hframe]
    rfl
  | text t => cases hi

end Sys2Proof.Proofs
end

section
/-! SUPPORT. Runs of the machine over command words on the port: every step answers a next state, no instruction looks at the
port, so a run over the encoding of a program is the run of the program (44_stream_commands.md R210, 70_reset_and_hazards.md
R297). -/

namespace Sys2Proof.Proofs

open Sys2Proof.Machine Sys2Proof.Safety Sys2Proof.Laws

/-- No step stops the machine: a transfer takes commands, a RESET resets, anything else leaves the registers alone (R297). -/
theorem step_eq_next (s : State) : ∃ t, step s = .next t := by
  cases htransfer : s.transfer with
  | true =>
    obtain ⟨-, -, -, t, -, -, -, hstep, -⟩ := step_of_transfer s htransfer
    exact ⟨t, hstep⟩
  | false =>
    cases hrst : s.rstInput with
    | true => exact ⟨_, step_of_rstInput s hrst⟩
    | false =>
      obtain ⟨t, hstep, -⟩ := step_of_no_transfer s htransfer hrst
      exact ⟨t, hstep⟩

theorem presentDatagram_withPort (bs : List Byte) (s : State) (p : List PortItem) :
    presentDatagram bs (s.withPort p) = (presentDatagram bs s).withPort p := by
  have hstart : startCommand (s.withPort p) = (startCommand s).withPort p := rfl
  rw [presentDatagram, hstart, byteCommands_withPort, endCommand_withPort, presentDatagram]

/-- No instruction looks at the port. -/
theorem exec_withPort (i : Instr) (s t : State) (p : List PortItem) (h : exec i s = .next t) :
    exec i (s.withPort p) = .next (t.withPort p) := by
  cases i with
  | nop d => cases h; rfl
  | start d => cases h; rfl
  | byte b => cases h; rw [exec_byte, byteCommand_withPort]
  | end_ d => cases h; rw [exec_end, endCommand_withPort]
  | hk f => cases h; rw [exec_hk, presentDatagram_withPort]
  | pd f => cases h; rw [exec_pd, presentDatagram_withPort]

/-- The encoding of an instruction on the port is taken as that instruction. -/
theorem step_of_encode (s : State) (i : Instr) (rest : List PortItem) (h : s.port = encode i :: rest) :
    step s = exec i (s.withPort rest) :=
  stepRunsTheDecodedInstruction s (encode i) rest i h (decodeOfEncodeIsIdentity i)

theorem runProgram_cons (i : Instr) (prog : List Instr) (s t : State) (h : exec i s = .next t) :
    runProgram (i :: prog) s = runProgram prog t := by
  rw [runProgram, h]

theorem run_succ_of_step (k : Nat) (s t : State) (h : step s = .next t) :
    Host.Core.run core (k + 1) s = Host.Core.run core k t := by
  have hstep : core.step s = .next t := h
  simp only [Host.Core.run, hstep]

/-- A run over the encoding of a program is the run of the program, and leaves what stands behind it on the port. -/
theorem run_encode (prog : List Instr) (s : State) (rest : List PortItem) (h : s.port = prog.map encode ++ rest) :
    Host.Core.run core prog.length s = runProgram prog (s.withPort rest) := by
  induction prog generalizing s with
  | nil =>
    have hport : s.port = rest := h
    rw [← hport]
    rfl
  | cons i prog ih =>
    obtain ⟨t, ht⟩ := exec_eq_next i s
    have hstep : step s = .next (t.withPort (prog.map encode ++ rest)) :=
      (step_of_encode s i _ h).trans (exec_withPort i s t _ ht)
    rw [List.length_cons, run_succ_of_step _ s _ hstep, ih _ rfl,
      runProgram_cons i prog _ _ (exec_withPort i s t rest ht)]
    rfl

/-- The first `k` steps over the encoding of a program run its first `k` instructions. -/
theorem run_encode_take (k : Nat) (prog : List Instr) (s : State) (rest : List PortItem) (hk : k ≤ prog.length)
    (h : s.port = prog.map encode ++ rest) :
    Host.Core.run core k s = runProgram (prog.take k) (s.withPort ((prog.drop k).map encode ++ rest)) := by
  have hport : s.port = (prog.take k).map encode ++ ((prog.drop k).map encode ++ rest) := by
    rw [h, ← List.append_assoc, ← List.map_append, List.take_append_drop]
  rw [← run_encode _ s _ hport, List.length_take, min_eq_left hk]

theorem length_dgram (bs : List Byte) (d e : Byte) :
    (Instr.start d :: (bs.map Instr.byte ++ [.end_ e])).length = bs.length + 2 := by
  simp

/-- A DGRAM cut before its END is START and the bytes up to the cut. -/
theorem take_succ_dgram (bs : List Byte) (d e : Byte) (k : Nat) (hk : k ≤ bs.length) :
    (Instr.start d :: (bs.map Instr.byte ++ [.end_ e])).take (k + 1) = .start d :: (bs.take k).map Instr.byte := by
  rw [List.take_succ_cons, List.take_append_of_le_length (by rwa [List.length_map]), List.map_take]

theorem openedDatagram_not_complete (bs : List Byte) (s : State) :
    ¬ complete (byteCommands bs (startCommand s)) ∧ (byteCommands bs (startCommand s)).rvalid = false := by
  obtain ⟨hrecv, -, hv, -⟩ := openedDatagram_holds bs s
  exact ⟨by simp [complete, hrecv], hv⟩

end Sys2Proof.Proofs
end

section
/-! The statement of the reset and hazards family, settled. -/

namespace Sys2Proof.Proofs

open Sys2Proof.Machine Sys2Proof.Safety Sys2Proof.Laws

/-- Settles O53: the `n + 2` steps run the whole DGRAM, which ends with an outcome; fewer run START and some of the bytes, which
leaves the datagram open. -/
theorem dgramFinishesAfterItsCommands : Obligations.DgramFinishesAfterItsCommands := by
  refine ⟨fun s => ⟨rfl, step_eq_next s⟩, fun s bs d e rest hport => ⟨?_, fun k hpos hk => ?_⟩⟩
  · have hrun := run_encode _ s rest hport
    rw [length_dgram, runProgram_dgram bs _ _ (isDgram_of_bytes bs d e)] at hrun
    obtain ⟨-, -, -, -, -, -, -, hrest, -⟩ := presentDatagram_spec bs (s.withPort rest)
    obtain ⟨hidle, hv⟩ := presentDatagram_done bs (s.withPort rest)
    exact ⟨_, hrun, hrest, hidle, hv⟩
  · obtain ⟨m, rfl⟩ := Nat.exists_eq_add_of_le' hpos
    have hrun := run_encode_take (m + 1) _ s rest (by rw [length_dgram]; omega) hport
    rw [take_succ_dgram bs d e m (by omega), runProgram_opens _ _ _ (opensDgram_of_bytes (bs.take m) d)] at hrun
    exact ⟨_, hrun, openedDatagram_not_complete _ _⟩

end Sys2Proof.Proofs
end
